-- ==== Sys2Proof/Word.lean ====
section
/-!
DEFINITION. The word types of the block (`00_scope.md` rules R8 and R9): bytes, 16-bit addresses, the 13-bit offsets the
address decoder produces, and the 32-bit write-data and read-data fields. Every value is unsigned (R9).
-/

namespace Sys2Proof

/-- The addressable unit, `u8` (`00_scope.md` R8). -/
abbrev Byte := BitVec 8

/-- A byte address, `u16` (`00_scope.md` R8, `10_state.md` R22). -/
abbrev Addr := BitVec 16

/-- An offset into a store, `u13` (`20_memory.md` R30: "`off` fits in 13 bits for every window"). -/
abbrev Off := BitVec 13

/-- A 16-bit value (`00_scope.md` R8, access widths). -/
abbrev Half := BitVec 16

/-- A 32-bit value: `wdata` and `rdata` (`30_encoding.md` R51, R52). -/
abbrev Word := BitVec 32

end Sys2Proof
end

