-- ==== Sys2Proof/Config.lean ====
section
/-!
DEFINITION. The fixed parameters of the block (`00_scope.md` R8) and the one parameter the spec leaves open, `OOB_POLICY`
(`92_eei_decisions.md` D7).
-/

namespace Sys2Proof.Config

/-- VRAM_SIZE (`00_scope.md` R8). -/
def vramSize : Nat := 8192

/-- ERAM_SIZE (`00_scope.md` R8). -/
def eramSize : Nat := 8192

/-- WRAM_SIZE (`00_scope.md` R8). -/
def wramSize : Nat := 8192

/-- ECHO_SPAN, the bytes the echo window covers (`00_scope.md` R8). -/
def echoSpan : Nat := 7680

/-- OAM_SIZE (`00_scope.md` R8). -/
def oamSize : Nat := 160

/-- What every byte of a store and the register `ie` hold after construction (`10_state.md` R13,
`70_reset_and_hazards.md` R85). A byte a store's list does not name reads as this value. -/
def resetByte : Byte := 0x00#8

/-- `OOB_POLICY`, what the system AROUND the block does after an OutOfBounds fault: the spec's two example values
(`92_eei_decisions.md` D7). It is an argument of the system-level step only (`60_exceptions.md` R74); the block's own
behaviour does not depend on it (`00_scope.md` R8). -/
inductive OobPolicy where
  /-- The system stops at the first fault. -/
  | halt
  /-- Some response the integrator defines; the spec does not say which. -/
  | integratorDefined
  deriving DecidableEq, Repr

end Sys2Proof.Config
end

