-- ==== Sys2Proof/Syntax.lean ====
section
/-!
DEFINITION. The requests of the block as abstract syntax: one constructor per row of the command map
(`30_encoding.md` R61, `spec/opcode_table.json`), with the operands the operation uses and nothing else.
-/

namespace Sys2Proof

/-- The six access operations and the two reserved commands (`30_encoding.md` R57, R61). Every field has the width of the
operand it stands for (R51, R54), so each term is a request the encoding admits. -/
inductive Instr where
  /-- RB, read_byte (`40_byte_access.md` R62). -/
  | rb (addr : Addr)
  /-- RW, read_word (`41_multibyte_access.md` R65). -/
  | rw (addr : Addr)
  /-- RD, read_dword (`41_multibyte_access.md` R67). -/
  | rd (addr : Addr)
  /-- WB, write_byte (`40_byte_access.md` R63). -/
  | wb (addr : Addr) (value : Byte)
  /-- WW, write_word (`41_multibyte_access.md` R66). -/
  | ww (addr : Addr) (value : Half)
  /-- WD, write_dword (`41_multibyte_access.md` R68). -/
  | wd (addr : Addr) (value : Word)
  /-- The reserved command 0b011 (`30_encoding.md` R57); `addr` is reported by the fault and not decoded. -/
  | reserved011 (addr : Addr)
  /-- The reserved command 0b111 (`30_encoding.md` R57); `addr` is reported by the fault and not decoded. -/
  | reserved111 (addr : Addr)
  deriving DecidableEq, Repr

end Sys2Proof
end

