-- ==== Sys2Proof/Decode.lean ====
section
/-!
DEFINITION. The request format (`30_encoding.md` R51, R53, R54), the request decoder and the encoder. Decoding is total:
every command value names a row of the command map (R61), the two reserved values among them (R57). Bits that are not a
51-bit request are rejected by name.
-/

namespace Sys2Proof

/-- The request format: three fields (`30_encoding.md` R51). -/
structure Request where
  /-- The command, `{WE, SZ[1:0]}` (R53). -/
  cmd   : BitVec 3
  /-- The operation's address argument. -/
  addr  : Addr
  /-- The write operation's value argument, placed as in R54; not used by reads. -/
  wdata : Word
  deriving DecidableEq, Repr

/-- The listing word `{cmd[2:0], addr[15:0], wdata[31:0]}` (`30_encoding.md` R51). -/
def Request.word (r : Request) : BitVec 51 := r.cmd ++ r.addr ++ r.wdata

/-- The three fields of a listing word: `cmd` is bits 50:48, `addr` bits 47:32, `wdata` bits 31:0
(`30_encoding.md` R51). -/
def requestOfWord (w : BitVec 51) : Request :=
  { cmd := w.extractLsb' 48 3, addr := w.extractLsb' 32 16, wdata := w.extractLsb' 0 32 }

/-- `WE`, bit 2 of the command: 1 is a write (`30_encoding.md` R53). -/
def writeEnable (cmd : BitVec 3) : Bool := cmd.getLsbD 2

/-- `SZ`, bits 1:0 of the command (`30_encoding.md` R53). -/
def sizeField (cmd : BitVec 3) : BitVec 2 := cmd.setWidth 2

/-- The access width in bytes that `SZ` names; none for the reserved value 0b11 (`30_encoding.md` R53, R58). -/
def accessBytes (sz : BitVec 2) : Option Nat :=
  if sz = 0b00#2 then some 1
  else if sz = 0b01#2 then some 2
  else if sz = 0b10#2 then some 4
  else none

/-- The request decoder: the command map (`30_encoding.md` R61) with operand assembly (R54). A write of n bytes takes
`wdata[8n-1:0]`, and the other bits are ignored (R54); a read uses none (R51). DEDUCED (log 11): a reserved command uses none
(R57). -/
def decode (r : Request) : Instr :=
  match writeEnable r.cmd, accessBytes (sizeField r.cmd) with
  | false, some 1 => .rb r.addr
  | false, some 2 => .rw r.addr
  | false, some _ => .rd r.addr
  | false, none   => .reserved011 r.addr
  | true,  some 1 => .wb r.addr (r.wdata.setWidth 8)
  | true,  some 2 => .ww r.addr (r.wdata.setWidth 16)
  | true,  some _ => .wd r.addr r.wdata
  | true,  none   => .reserved111 r.addr

/-- The command of each row of the command map (`30_encoding.md` R61). -/
def Instr.cmd : Instr → BitVec 3
  | .rb _          => 0b000#3
  | .rw _          => 0b001#3
  | .rd _          => 0b010#3
  | .reserved011 _ => 0b011#3
  | .wb _ _        => 0b100#3
  | .ww _ _        => 0b101#3
  | .wd _ _        => 0b110#3
  | .reserved111 _ => 0b111#3

/-- The request's address field. -/
def Instr.addr : Instr → Addr
  | .rb a          => a
  | .rw a          => a
  | .rd a          => a
  | .reserved011 a => a
  | .wb a _        => a
  | .ww a _        => a
  | .wd a _        => a
  | .reserved111 a => a

/-- The write-data field: the value in its low lanes (`30_encoding.md` R54); the bits the command ignores are written
as 0 (log 11). -/
def Instr.wdata : Instr → Word
  | .rb _          => 0#32
  | .rw _          => 0#32
  | .rd _          => 0#32
  | .reserved011 _ => 0#32
  | .wb _ v        => v.setWidth 32
  | .ww _ v        => v.setWidth 32
  | .wd _ v        => v
  | .reserved111 _ => 0#32

/-- The encoder: the request of an instruction (`30_encoding.md` R51, R54, R61). -/
def encode (i : Instr) : Request := { cmd := i.cmd, addr := i.addr, wdata := i.wdata }

/-- Why bits are not a request. -/
inductive NotARequest where
  /-- A bit above bit 50 is 1: a request has 51 bits (`30_encoding.md` R51). -/
  | bitAboveRequest
  /-- The bytes are not exactly seven, the number that holds 51 bits (log 10). -/
  | wrongByteCount
  deriving DecidableEq, Repr

/-- The request a number stands for, where its bits are a 51-bit request word (`30_encoding.md` R51). -/
def requestOfNat (w : Nat) : Except NotARequest Request :=
  if w < 2 ^ 51 then .ok (requestOfWord (BitVec.ofNat 51 w)) else .error .bitAboveRequest

/-- The number a list of bytes stands for, the first byte least significant (log 10). -/
def natOfBytes : List Byte → Nat
  | []      => 0
  | b :: bs => b.toNat + 256 * natOfBytes bs

/-- The decoder on bytes: total, rejecting by name. Seven bytes hold one request word, low byte first (log 10). -/
def decodeBytes (bytes : List Byte) : Except NotARequest Instr :=
  if bytes.length = 7 then
    match requestOfNat (natOfBytes bytes) with
    | .ok r    => .ok (decode r)
    | .error e => .error e
  else .error .wrongByteCount

/-- The `k` low bytes of a number, low byte first. -/
def bytesOfNat : Nat → Nat → List Byte
  | 0,     _ => []
  | k + 1, w => BitVec.ofNat 8 w :: bytesOfNat k (w / 256)

/-- The encoder to bytes: the seven bytes of the request word, low byte first (log 10). -/
def encodeBytes (i : Instr) : List Byte := bytesOfNat 7 (encode i).word.toNat

/-- The instruction the decoder reads from a request word numbered as `spec/opcode_table.json` numbers it: bit 0 is the
least significant bit of `wdata`; the bits from `nbits` up are 0. -/
def decodeTableWord (nbits w : Nat) : Option Instr :=
  if w % 2 ^ nbits < 2 ^ 56 then
    match decodeBytes (bytesOfNat 7 (w % 2 ^ nbits)) with
    | .ok i    => some i
    | .error _ => none
  else none

end Sys2Proof
end

