-- ==== Sys2Proof/WellFormed.lean ====
section
/-!
DEFINITION. Well-formedness. An `Instr` is well-formed by its types: every field has its operand's width. What can be
ill-formed is a request AS IT IS WRITTEN, with numbers that need not fit (`30_encoding.md` R59): "A listing with a number
that does not fit is refused, not truncated."
-/

namespace Sys2Proof

/-- One request of a listing, its numbers as written (`30_encoding.md` R59). -/
inductive ListingRequest where
  | rb  (addr : Nat)
  | rw  (addr : Nat)
  | rd  (addr : Nat)
  | wb  (addr value : Nat)
  | ww  (addr value : Nat)
  | wd  (addr value : Nat)
  /-- A raw request: the only way to write a reserved command. -/
  | req (cmd addr wdata : Nat)
  deriving DecidableEq, Repr

/-- `addr` is a number 0x0000-0xFFFF (`30_encoding.md` R59). -/
def addrFits (n : Nat) : Bool := n < 2 ^ 16

/-- `value` fits a width of `k` bytes (`30_encoding.md` R59). -/
def valueFits (k n : Nat) : Bool := n < 2 ^ (8 * k)

/-- `cmd` fits its three bits (`30_encoding.md` R51). -/
def cmdFits (n : Nat) : Bool := n < 2 ^ 3

/-- Every number of the request fits its field (`30_encoding.md` R59). -/
def ListingRequest.wellFormed : ListingRequest → Bool
  | .rb a      => addrFits a
  | .rw a      => addrFits a
  | .rd a      => addrFits a
  | .wb a v    => addrFits a && valueFits 1 v
  | .ww a v    => addrFits a && valueFits 2 v
  | .wd a v    => addrFits a && valueFits 4 v
  | .req c a v => cmdFits c && addrFits a && valueFits 4 v

end Sys2Proof
end

