-- ==== Sys2Proof/Machine/State.lean ====
section
/-!
DEFINITION. The state. `Block` is the whole state the spec gives the block, `S = (vram, eram, wram, oam, ie)`
(`10_state.md` R13). `State` puts beside it the two ends of the block's one port (`30_encoding.md` R50): the requests not
yet performed and the responses given so far. All of it is plain data.
-/

namespace Sys2Proof.Machine

/-- The contents of one store: pairs of an offset into the store and the byte there. An offset that is not listed holds
`Config.resetByte` (`70_reset_and_hazards.md` R85). The canonical form is `Memory.wf`. -/
abbrev Memory := List Host.Cell

/-- The five stores (`00_scope.md` glossary, `10_state.md` R13). -/
inductive Store where
  | vram
  | eram
  | wram
  | oam
  | ie
  deriving DecidableEq, Repr

/-- The six windows (`20_memory.md` R25). -/
inductive Window where
  | vram
  | eram
  /-- The primary window of `wram`. -/
  | wram
  /-- The echo window of `wram`. -/
  | echo
  | oam
  | ie
  deriving DecidableEq, Repr

/-- A cell is `(store, off)`, not an address (`20_memory.md` R45). -/
structure CellRef where
  store : Store
  off   : Off
  deriving DecidableEq, Repr

/-- What the address decoder answers (`20_memory.md` R30). -/
inductive Decoded where
  /-- The unmapped-address guard. -/
  | unmapped
  | mapped (win : Window) (st : Store) (off : Off)
  deriving DecidableEq, Repr

/-- The whole state of the block (`10_state.md` R13): "Nothing else is state". -/
structure Block where
  /-- Video RAM, 8192 bytes (`10_state.md` R14). -/
  vram : Memory
  /-- "Switchable external RAM", 8192 bytes, one bank (`10_state.md` R15). -/
  eram : Memory
  /-- Internal work RAM, 8192 bytes, one store behind two windows (`10_state.md` R16). -/
  wram : Memory
  /-- Sprite attribute memory, 160 bytes (`10_state.md` R17). -/
  oam  : Memory
  /-- The interrupt-enable register, 8 bits (`10_state.md` R18). -/
  ie   : Byte
  deriving DecidableEq, Repr

/-- Construction, `new()`: every byte of every store and `ie` are 0x00 (`70_reset_and_hazards.md` R85). -/
def Block.new : Block := { vram := [], eram := [], wram := [], oam := [], ie := Config.resetByte }

/-- The causes of a fault (`60_exceptions.md` R69, R70). -/
inductive Cause where
  | outOfBounds
  | illegalCommand
  deriving DecidableEq, Repr

/-- The response to one request (`30_encoding.md` R52, `00_scope.md` R12). A response with a fault has no data (log 7). -/
inductive Response where
  /-- A read that completed, with `rdata` (`30_encoding.md` R54). -/
  | value (rdata : Word)
  /-- A write that completed. -/
  | done
  /-- An operation ended by a fault, with `faddr` (`60_exceptions.md` R69, R70). -/
  | fault (cause : Cause) (faddr : Addr)
  deriving DecidableEq, Repr

/-- What the outside world does to the block, one at a time (`00_scope.md` R7). -/
inductive Input where
  /-- One request of the serialised stream. -/
  | request (r : Request)
  /-- The reset input, where a build has one (`70_reset_and_hazards.md` R84, log 5). -/
  | reset
  deriving DecidableEq, Repr

/-- The machine: the block, the stream it has not performed yet and the responses it has given. -/
structure State where
  /-- The block's whole state (`10_state.md` R13). -/
  block     : Block
  /-- The model's own field: requests and reset events not yet performed, oldest first (`00_scope.md` R7, log 2). -/
  inputs    : List Input
  /-- The model's own field: the responses given, oldest first; no operation reads it (`30_encoding.md` R52, log 4). -/
  responses : List Response
  deriving DecidableEq, Repr

/-- The machine right after construction: every cell is 0x00 (`70_reset_and_hazards.md` R85); nothing has been asked and
nothing answered (log 2, log 4). -/
def State.reset : State := { block := Block.new, inputs := [], responses := [] }

/-- Why the machine stops. The BLOCK never stops: its faults are responses, and it takes the next request
(`60_exceptions.md` R73, R75, log 1), so `step` raises none of these. -/
inductive Fault where
  /-- Raised by the system-level step (`systemStep`) under `OOB_POLICY = halt` once a response has reported OutOfBounds at
  `faddr` (`92_eei_decisions.md` D7, log 12). Safe, as the stopped system is never called a good final state, but unsafe
  for a claim that it stays stopped after a reset input, which the spec leaves open. -/
  | haltedByPolicy (faddr : Addr)
  deriving DecidableEq, Repr

/-- Why there is no step. -/
inductive Refusal where
  /-- An instruction that has no meaning yet. Safe. -/
  | notModelled (mnemonic : String)
  /-- Raised by `step` when the stream is empty: the block "never takes a step of its own" (`00_scope.md` R7, log 3).
  Safe. -/
  | noRequest
  /-- Raised by the system-level step (`systemStep`) when a response has reported OutOfBounds and the integrator's answer
  to it is not given (`60_exceptions.md` R74, log 12). Safe. -/
  | integratorPolicyNotGiven
  deriving DecidableEq, Repr

end Sys2Proof.Machine
end

