-- ==== Sys2Proof/Machine/Flags.lean ====
section
/-!
DEFINITION. The block has no flags (`40_byte_access.md` and `41_multibyte_access.md`, every rule: "Flags. None."). What
reports the outcome of a request is the response: its three fields on a port (`30_encoding.md` R52).
-/

namespace Sys2Proof.Machine

/-- The fault code of a cause (`30_encoding.md` R52, `92_eei_decisions.md` D12). -/
def Cause.code : Cause → BitVec 2
  | .outOfBounds    => 0b01#2
  | .illegalCommand => 0b10#2

/-- The field `fault[1:0]` of a response (`30_encoding.md` R52). -/
def Response.faultField : Response → BitVec 2
  | .value _   => 0b00#2
  | .done      => 0b00#2
  | .fault c _ => c.code

/-- The field `faddr[15:0]` of a response; 0x0000 on no fault (`30_encoding.md` R52). -/
def Response.faddrField : Response → Addr
  | .value _   => 0x0000#16
  | .done      => 0x0000#16
  | .fault _ a => a

/-- The field `rdata[31:0]` of a response: the value read, or 0x00000000 on a write. On a fault it carries no value, so
there is none here (`30_encoding.md` R52, `92_eei_decisions.md` D14, log 7). -/
def Response.rdataField : Response → Option Word
  | .value v   => some v
  | .done      => some 0#32
  | .fault _ _ => none

/-- The response reports a fault (`60_exceptions.md` R69, R70). -/
def Response.isFault : Response → Bool
  | .fault _ _ => true
  | .value _   => false
  | .done      => false

end Sys2Proof.Machine
end

