-- ==== Sys2Proof/Machine/AddressMap.lean ====
section
/-!
DEFINITION. The address decoder (`20_memory.md` R29-R34), its gate-level form (R36), the region-select output
(`30_encoding.md` R55) and the store selects (R56). All are pure functions of the address (R28).
-/

namespace Sys2Proof.Machine

/-- The first address of a window (`20_memory.md` R25). -/
def Window.first : Window → Addr
  | .vram => 0x8000#16
  | .eram => 0xA000#16
  | .wram => 0xC000#16
  | .echo => 0xE000#16
  | .oam  => 0xFE00#16
  | .ie   => 0xFFFF#16

/-- The last address of a window; the interval is closed (`20_memory.md` R25). -/
def Window.last : Window → Addr
  | .vram => 0x9FFF#16
  | .eram => 0xBFFF#16
  | .wram => 0xDFFF#16
  | .echo => 0xFDFF#16
  | .oam  => 0xFE9F#16
  | .ie   => 0xFFFF#16

/-- The size of a window in bytes (`20_memory.md` R25, `00_scope.md` R8). -/
def Window.size : Window → Nat
  | .vram => Config.vramSize
  | .eram => Config.eramSize
  | .wram => Config.wramSize
  | .echo => Config.echoSpan
  | .oam  => Config.oamSize
  | .ie   => 1

/-- The store a window reaches (`20_memory.md` R25). -/
def Window.store : Window → Store
  | .vram => .vram
  | .eram => .eram
  | .wram => .wram
  | .echo => .wram
  | .oam  => .oam
  | .ie   => .ie

/-- The offset of an address inside a window that starts at `base` (`20_memory.md` R31-R33). -/
def offsetFrom (base a : Addr) : Off := (a - base).setWidth 13

/-- The address decoder, in the listed order, with closed intervals (`20_memory.md` R29, R30). -/
def decodeAddr (a : Addr) : Decoded :=
  if 0x8000#16 ≤ a ∧ a ≤ 0x9FFF#16 then .mapped .vram .vram (offsetFrom 0x8000#16 a)
  else if 0xA000#16 ≤ a ∧ a ≤ 0xBFFF#16 then .mapped .eram .eram (offsetFrom 0xA000#16 a)
  else if 0xC000#16 ≤ a ∧ a ≤ 0xDFFF#16 then .mapped .wram .wram (offsetFrom 0xC000#16 a)
  else if 0xE000#16 ≤ a ∧ a ≤ 0xFDFF#16 then .mapped .echo .wram (offsetFrom 0xE000#16 a)
  else if 0xFE00#16 ≤ a ∧ a ≤ 0xFE9F#16 then .mapped .oam .oam (offsetFrom 0xFE00#16 a)
  else if a = 0xFFFF#16 then .mapped .ie .ie 0#13
  else .unmapped

/-- The gate-level form: bit tests on the address (`20_memory.md` R36). Not a second definition: the machine uses
`decodeAddr`. -/
def decodeAddrGates (a : Addr) : Decoded :=
  if a.extractLsb' 15 1 = 0b0#1 then .unmapped
  else if a.extractLsb' 13 3 = 0b100#3 then .mapped .vram .vram (a.extractLsb' 0 13)
  else if a.extractLsb' 13 3 = 0b101#3 then .mapped .eram .eram (a.extractLsb' 0 13)
  else if a.extractLsb' 13 3 = 0b110#3 then .mapped .wram .wram (a.extractLsb' 0 13)
  else if a.extractLsb' 13 3 = 0b111#3 ∧ a.extractLsb' 9 4 ≠ 0b1111#4 then
    .mapped .echo .wram (a.extractLsb' 0 13)
  else if a.extractLsb' 8 8 = 0xFE#8 then
    if a.extractLsb' 7 1 = 0b0#1 ∨ (a.extractLsb' 6 1 = 0b0#1 ∧ a.extractLsb' 5 1 = 0b0#1) then
      .mapped .oam .oam ((a.extractLsb' 0 8).setWidth 13)
    else .unmapped
  else if a.extractLsb' 0 8 = 0xFF#8 then .mapped .ie .ie 0#13
  else .unmapped

/-- The cell an address selects; none when it is unmapped (`20_memory.md` R27). -/
def cellOf (a : Addr) : Option CellRef :=
  match decodeAddr a with
  | .unmapped        => none
  | .mapped _ st off => some ⟨st, off⟩

/-- The region-select code of a window (`30_encoding.md` R55). -/
def Window.sel : Window → BitVec 3
  | .vram => 0b001#3
  | .eram => 0b010#3
  | .wram => 0b011#3
  | .echo => 0b100#3
  | .oam  => 0b101#3
  | .ie   => 0b110#3

/-- The output `sel[2:0]` for a byte address; 0b000 is unmapped (`30_encoding.md` R55). -/
def regionSel (a : Addr) : BitVec 3 :=
  match decodeAddr a with
  | .unmapped       => 0b000#3
  | .mapped win _ _ => win.sel

/-- The output `off[12:0]` for a byte address; 0 when unmapped (`30_encoding.md` R55, I5). -/
def regionOff (a : Addr) : Off :=
  match decodeAddr a with
  | .unmapped       => 0#13
  | .mapped _ _ off => off

/-- The chip select of a store, derived from `sel` (`30_encoding.md` R56). -/
def storeSelect (st : Store) (sel : BitVec 3) : Bool :=
  match st with
  | .vram => sel = 0b001#3
  | .eram => sel = 0b010#3
  | .wram => sel = 0b011#3 ∨ sel = 0b100#3
  | .oam  => sel = 0b101#3
  | .ie   => sel = 0b110#3

end Sys2Proof.Machine
end

