-- ==== Sys2Proof/Machine/Operands.lean ====
section
/-!
DEFINITION. Operand forms (`30_encoding.md` R54): the address of byte i of an access, the byte lanes of a value, and the
read-data fill. There is one addressing mode, the absolute 16-bit address; nothing is scaled, aligned or sign-extended.
-/

namespace Sys2Proof.Machine

/-- `addr ⊕ i`, the address of byte i: addition modulo 2^16 (`00_scope.md` R10, `30_encoding.md` R54). -/
def byteAddr (a : Addr) (i : Nat) : Addr := a + BitVec.ofNat 16 i

/-- Byte i of a value, `v[8i+7:8i]` (`20_memory.md` R37, R40). -/
def lane (v : Word) (i : Nat) : Byte := v.extractLsb' (8 * i) 8

/-- Byte `b` at lane i of a value that is 0 elsewhere, `zext_32(b) << (8*i)` (`20_memory.md` R39). -/
def atLane (b : Byte) (i : Nat) : Word := b.setWidth 32 <<< (8 * i)

/-- `rdata` of a read of n bytes, `zext_32(r[8n-1:0])` (`20_memory.md` R39, `30_encoding.md` R54). -/
def readData (n : Nat) (r : Word) : Word := (r.setWidth (8 * n)).setWidth 32

end Sys2Proof.Machine
end

