-- ==== Sys2Proof/Machine/Ops.lean ====
section
/-!
DEFINITION. The named operations: one store's memory, the store access primitives (`20_memory.md` R35), byte accesses
(`40_byte_access.md` R62, R63), the multi-byte sequences (`20_memory.md` R39, R40), the response to a request, taking a
fault (`60_exceptions.md` R73) and the reset input (`70_reset_and_hazards.md` R84).
-/

namespace Sys2Proof.Machine

/-- The byte at an offset of a store's memory; an offset not listed holds the reset byte. -/
def Memory.read : Memory → Nat → Byte
  | [],          _ => Config.resetByte
  | (j, v) :: m, k => if j = k then v else Memory.read m k

/-- The memory with the byte at one offset replaced; it stays in canonical form. -/
def Memory.write : Memory → Nat → Byte → Memory
  | [], k, v => if v = Config.resetByte then [] else [(k, v)]
  | (j, w) :: m, k, v =>
    if k < j then (if v = Config.resetByte then (j, w) :: m else (k, v) :: (j, w) :: m)
    else if k = j then (if v = Config.resetByte then m else (k, v) :: m)
    else (j, w) :: Memory.write m k v

/-- The canonical form: offsets strictly rising, and no listed byte equal to what an unlisted offset holds. -/
def Memory.wf (m : Memory) : Bool :=
  decide (m.Pairwise (fun c d => c.1 < d.1)) && m.all (fun c => c.2 != Config.resetByte)

/-- Every listed offset is inside a store of `size` bytes. -/
def Memory.inside (size : Nat) (m : Memory) : Bool := m.all (fun c => c.1 < size)

/-- How many bytes a store has (`10_state.md` R13). -/
def Store.size : Store → Nat
  | .vram => Config.vramSize
  | .eram => Config.eramSize
  | .wram => Config.wramSize
  | .oam  => Config.oamSize
  | .ie   => 1

/-- `StoreRead` (`20_memory.md` R35). `ie` is a scalar: its offset is not used (R30). -/
def storeRead (b : Block) (st : Store) (off : Off) : Byte :=
  match st with
  | .vram => Memory.read b.vram off.toNat
  | .eram => Memory.read b.eram off.toNat
  | .wram => Memory.read b.wram off.toNat
  | .oam  => Memory.read b.oam off.toNat
  | .ie   => b.ie

/-- `StoreWrite`: changes exactly the one cell it names (`20_memory.md` R35). `oam` has no byte at an offset of 160 or
more; the address decoder produces none, and such a write would change nothing (log 9). -/
def storeWrite (b : Block) (st : Store) (off : Off) (v : Byte) : Block :=
  match st with
  | .vram => { b with vram := Memory.write b.vram off.toNat v }
  | .eram => { b with eram := Memory.write b.eram off.toNat v }
  | .wram => { b with wram := Memory.write b.wram off.toNat v }
  | .oam  => if off.toNat < Config.oamSize then { b with oam := Memory.write b.oam off.toNat v } else b
  | .ie   => { b with ie := v }

/-- The outcome of an operation on `S` (`00_scope.md` R12): `Ok(S', r)` or `Fault(S', cause, a)`. -/
inductive Access (α : Type) where
  | ok    (after : Block) (r : α)
  | fault (after : Block) (cause : Cause) (faddr : Addr)
  deriving DecidableEq, Repr

/-- The block after an operation, completed or faulted: the `S'` of the outcome (`00_scope.md` R12). -/
def Access.after {α : Type} : Access α → Block
  | .ok b _      => b
  | .fault b _ _ => b

/-- The byte at an address, where the address is mapped: the model's read of one byte. -/
def byteAt (b : Block) (a : Addr) : Option Byte :=
  match decodeAddr a with
  | .unmapped        => none
  | .mapped _ st off => some (storeRead b st off)

/-- `ByteRead(addr)` (`40_byte_access.md` R62). -/
def byteRead (b : Block) (a : Addr) : Access Byte :=
  match decodeAddr a with
  | .unmapped        => .fault b .outOfBounds a
  | .mapped _ st off => .ok b (storeRead b st off)

/-- `ByteWrite(addr, value)` (`40_byte_access.md` R63). -/
def byteWrite (b : Block) (a : Addr) (v : Byte) : Access Unit :=
  match decodeAddr a with
  | .unmapped        => .fault b .outOfBounds a
  | .mapped _ st off => .ok (storeWrite b st off v) ()

/-- The loop of `MemRead`: `k` bytes are left, the next is byte `i`, and `r` holds the bytes before it
(`20_memory.md` R39). -/
def memReadFrom (b : Block) (a : Addr) : (k i : Nat) → (r : Word) → Access Word
  | 0,     _, r => .ok b r
  | k + 1, i, r =>
    match byteRead b (byteAddr a i) with
    | .fault b' c fa => .fault b' c fa
    | .ok b' v       => memReadFrom b' a k (i + 1) (r ||| atLane v i)

/-- `MemRead(addr, n)`: n bytes in ascending order, no value if any byte is unmapped (`20_memory.md` R39). -/
def memRead (b : Block) (a : Addr) (n : Nat) : Access Word := memReadFrom b a n 0 0#32

/-- The loop of `MemWrite`: `k` bytes are left and the next is byte `i`; it stops at the first unmapped byte
(`20_memory.md` R40). -/
def memWriteFrom (b : Block) (a : Addr) (v : Word) : (k i : Nat) → Access Unit
  | 0,     _ => .ok b ()
  | k + 1, i =>
    match byteWrite b (byteAddr a i) (lane v i) with
    | .fault b' c fa => .fault b' c fa
    | .ok b' _       => memWriteFrom b' a v k (i + 1)

/-- `MemWrite(addr, n, v)`: n bytes in ascending order; the bytes before the first unmapped one stay written
(`20_memory.md` R40). -/
def memWrite (b : Block) (a : Addr) (n : Nat) (v : Word) : Access Unit := memWriteFrom b a v n 0

/-- The machine with one more response given (`30_encoding.md` R52). -/
def State.respond (s : State) (r : Response) : State := { s with responses := s.responses ++ [r] }

/-- Taking a fault (`60_exceptions.md` R73): it is returned in the response; the block keeps the byte writes made before
the failing byte; no mode changes, nothing is saved, nothing vectors. There is no return operation: the block accepts the
next request in the state this leaves (R75, log 1). -/
def takeFault (s : State) (after : Block) (cause : Cause) (faddr : Addr) : State :=
  { s with block := after }.respond (.fault cause faddr)

/-- The response to a read of n bytes (`30_encoding.md` R52, R54). -/
def answerRead (s : State) (n : Nat) (o : Access Word) : Host.Outcome State Fault Refusal :=
  match o with
  | .ok b r       => .next ({ s with block := b }.respond (.value (readData n r)))
  | .fault b c fa => .next (takeFault s b c fa)

/-- The response to a write (`30_encoding.md` R52). -/
def answerWrite (s : State) (o : Access Unit) : Host.Outcome State Fault Refusal :=
  match o with
  | .ok b _       => .next ({ s with block := b }.respond .done)
  | .fault b c fa => .next (takeFault s b c fa)

/-- A reserved command: IllegalCommand with the request's address, which is not decoded; the block is unchanged
(`30_encoding.md` R57, `60_exceptions.md` R70). -/
def illegalCommand (s : State) (a : Addr) : Host.Outcome State Fault Refusal :=
  .next (takeFault s s.block .illegalCommand a)

/-- The reset input does exactly what construction does to the block; it has no response
(`70_reset_and_hazards.md` R84, R85, log 5). -/
def takeReset (s : State) : State := { s with block := Block.new }

/-- The next input of the stream, and the machine without it (`00_scope.md` R7). -/
def takeInput (s : State) : Option (Input × State) :=
  match s.inputs with
  | []        => none
  | x :: rest => some (x, { s with inputs := rest })

/-- The machine with a request put in front of the stream, so that the very next step performs it (log 2). -/
def placeRequest (s : State) (r : Request) : State := { s with inputs := .request r :: s.inputs }

end Sys2Proof.Machine
end

