-- ==== Sys2Proof/Machine/ByteAccess.lean ====
section
/-!
DEFINITION. The byte operations (`40_byte_access.md`). They are `MemRead` and `MemWrite` of one byte, which call the byte
primitives `ByteRead` and `ByteWrite` once.
-/

namespace Sys2Proof.Machine

/-- RB, read_byte (`40_byte_access.md` R62). -/
def execRb (addr : Addr) (s : State) : Host.Outcome State Fault Refusal :=
  answerRead s 1 (memRead s.block addr 1)

/-- WB, write_byte (`40_byte_access.md` R63). -/
def execWb (addr : Addr) (value : Byte) (s : State) : Host.Outcome State Fault Refusal :=
  answerWrite s (memWrite s.block addr 1 (value.setWidth 32))

end Sys2Proof.Machine
end

