-- ==== Sys2Proof/Machine/MultiByteAccess.lean ====
section
/-!
DEFINITION. The word and double-word operations (`41_multibyte_access.md`), as `MemRead` and `MemWrite` of two and four
bytes, and beside them the sequences of byte operations the rules spell out, to which they are equal.
-/

namespace Sys2Proof.Machine

/-- RW, read_word (`41_multibyte_access.md` R65). -/
def execRw (addr : Addr) (s : State) : Host.Outcome State Fault Refusal :=
  answerRead s 2 (memRead s.block addr 2)

/-- WW, write_word (`41_multibyte_access.md` R66). -/
def execWw (addr : Addr) (value : Half) (s : State) : Host.Outcome State Fault Refusal :=
  answerWrite s (memWrite s.block addr 2 (value.setWidth 32))

/-- RD, read_dword (`41_multibyte_access.md` R67). -/
def execRd (addr : Addr) (s : State) : Host.Outcome State Fault Refusal :=
  answerRead s 4 (memRead s.block addr 4)

/-- WD, write_dword (`41_multibyte_access.md` R68). -/
def execWd (addr : Addr) (value : Word) (s : State) : Host.Outcome State Fault Refusal :=
  answerWrite s (memWrite s.block addr 4 value)

/-- The pseudocode of read_word: two byte reads and `{hi, lo}` (`41_multibyte_access.md` R65). -/
def readWordByBytes (b : Block) (a : Addr) : Access Half :=
  match byteRead b a with
  | .fault b1 c fa => .fault b1 c fa
  | .ok b1 lo =>
    match byteRead b1 (byteAddr a 1) with
    | .fault b2 c fa => .fault b2 c fa
    | .ok b2 hi      => .ok b2 (hi ++ lo)

/-- The pseudocode of write_word: two byte writes, the low byte first (`41_multibyte_access.md` R66). -/
def writeWordByBytes (b : Block) (a : Addr) (v : Half) : Access Unit :=
  match byteWrite b a (v.extractLsb' 0 8) with
  | .fault b1 c fa => .fault b1 c fa
  | .ok b1 _       => byteWrite b1 (byteAddr a 1) (v.extractLsb' 8 8)

/-- The pseudocode of read_dword: four byte reads and `{b3, b2, b1, b0}` (`41_multibyte_access.md` R67). -/
def readDwordByBytes (b : Block) (a : Addr) : Access Word :=
  match readWordByBytes b a with
  | .fault b1 c fa => .fault b1 c fa
  | .ok b1 lo =>
    match readWordByBytes b1 (byteAddr a 2) with
    | .fault b2 c fa => .fault b2 c fa
    | .ok b2 hi      => .ok b2 (hi ++ lo)

/-- The pseudocode of write_dword: four byte writes in ascending order (`41_multibyte_access.md` R68). -/
def writeDwordByBytes (b : Block) (a : Addr) (v : Word) : Access Unit :=
  match writeWordByBytes b a (v.extractLsb' 0 16) with
  | .fault b1 c fa => .fault b1 c fa
  | .ok b1 _       => writeWordByBytes b1 (byteAddr a 2) (v.extractLsb' 16 16)

end Sys2Proof.Machine
end

