-- ==== Sys2Proof/Machine/Reserved.lean ====
section
/-!
DEFINITION. The two reserved commands (`30_encoding.md` R57). Neither is an operation: each raises IllegalCommand, which
the spec describes (`60_exceptions.md` R70), so each takes it.
-/

namespace Sys2Proof.Machine

/-- The reserved command 0b011 (`30_encoding.md` R57, `60_exceptions.md` R70). -/
def execReserved011 (addr : Addr) (s : State) : Host.Outcome State Fault Refusal := illegalCommand s addr

/-- The reserved command 0b111 (`30_encoding.md` R57, `60_exceptions.md` R70). -/
def execReserved111 (addr : Addr) (s : State) : Host.Outcome State Fault Refusal := illegalCommand s addr

end Sys2Proof.Machine
end

