-- ==== Sys2Proof/Machine/Dispatch.lean ====
section
/-! DEFINITION. The meaning of each request of the command map (`30_encoding.md` R61): one arm per constructor. -/

namespace Sys2Proof.Machine

def exec (i : Instr) (s : State) : Host.Outcome State Fault Refusal :=
  match i with
  | .rb addr => Sys2Proof.Machine.execRb addr s
  | .rw addr => Sys2Proof.Machine.execRw addr s
  | .rd addr => Sys2Proof.Machine.execRd addr s
  | .wb addr value => Sys2Proof.Machine.execWb addr value s
  | .ww addr value => Sys2Proof.Machine.execWw addr value s
  | .wd addr value => Sys2Proof.Machine.execWd addr value s
  | .reserved011 addr => Sys2Proof.Machine.execReserved011 addr s
  | .reserved111 addr => Sys2Proof.Machine.execReserved111 addr s

end Sys2Proof.Machine
end

