-- ==== Sys2Proof/Machine/Step.lean ====
section
/-!
DEFINITION. One step: the oldest input of the stream is performed whole (`00_scope.md` R6, R7). The command is checked
first, by the request decoder (`60_exceptions.md` R72).
-/

namespace Sys2Proof.Machine

/-- One step of the machine. With no input there is none: the block "never takes a step of its own"
(`00_scope.md` R7, log 3). -/
def step (s : State) : Host.Outcome State Fault Refusal :=
  match takeInput s with
  | none                => .refused .noRequest
  | some (.reset, t)     => .next (takeReset t)
  | some (.request r, t) => exec (decode r) t

/-- The machine with a request word, numbered as `spec/opcode_table.json` numbers it, in front of its stream, so that the
very next step performs it; the bits from `nbits` up are 0 (log 2). A number that is no 51-bit request places nothing. -/
def State.withFetchWord (s : State) (nbits w : Nat) : State :=
  match requestOfNat (w % 2 ^ nbits) with
  | .ok r    => placeRequest s r
  | .error _ => s

end Sys2Proof.Machine
end

