-- ==== Sys2Proof/Machine/Listing.lean ====
section
/-!
DEFINITION. The textual syntax of test listings (`30_encoding.md` R59, R60): from the characters of a line to a request
and, where the line shows one, the expected response. What does not have the form, or holds a number that does not fit, is
refused. Texts are lists of characters, one list a line.
-/

namespace Sys2Proof.Machine

/-- The response a listing shows after the arrow (`30_encoding.md` R59). -/
inductive Expected where
  | value (n : Nat)
  | ok
  | outOfBounds (addr : Nat)
  | illegalCommand
  deriving DecidableEq, Repr

/-- One request of a listing with the response it shows, if it shows one. -/
structure ListingEntry where
  request  : ListingRequest
  expected : Option Expected
  deriving DecidableEq, Repr

/-- What one line of a listing is. -/
inductive ListingLine where
  /-- Nothing but space and comment. -/
  | blank
  | entry (e : ListingEntry)
  | refused
  deriving DecidableEq, Repr

/-- A space or a tab. -/
def isBlank (c : Char) : Bool := c = ' ' || c = '\t'

/-- A text without the blanks at its two ends. -/
def trimBlanks (t : List Char) : List Char := ((t.dropWhile isBlank).reverse.dropWhile isBlank).reverse

/-- The value of a digit; hexadecimal digits in either case. -/
def digitValue (c : Char) : Option Nat :=
  if '0'.toNat ≤ c.toNat ∧ c.toNat ≤ '9'.toNat then some (c.toNat - '0'.toNat)
  else if 'a'.toNat ≤ c.toNat ∧ c.toNat ≤ 'f'.toNat then some (c.toNat - 'a'.toNat + 10)
  else if 'A'.toNat ≤ c.toNat ∧ c.toNat ≤ 'F'.toNat then some (c.toNat - 'A'.toNat + 10)
  else none

/-- The number a text of digits of a base denotes, going on from `acc`. -/
def digitsFrom (base acc : Nat) : List Char → Option Nat
  | []      => some acc
  | c :: cs =>
    match digitValue c with
    | none   => none
    | some d => if d < base then digitsFrom base (acc * base + d) cs else none

/-- A number of at least one digit in a base. -/
def digits (base : Nat) (t : List Char) : Option Nat :=
  match t with
  | [] => none
  | _  => digitsFrom base 0 t

/-- A number: hexadecimal with `0x`, or decimal (`30_encoding.md` R59). -/
def number (t : List Char) : Option Nat :=
  match t with
  | '0' :: 'x' :: ds => digits 16 ds
  | ds               => digits 10 ds

/-- The command of a raw request: a number, or binary with `0b` as the spec's own vectors write it (log 13). -/
def commandNumber (t : List Char) : Option Nat :=
  match t with
  | '0' :: 'b' :: ds => digits 2 ds
  | ds               => number ds

/-- The parts of a text between its commas. -/
def splitCommas : List Char → List (List Char)
  | []        => [[]]
  | ',' :: cs => [] :: splitCommas cs
  | c :: cs   =>
    match splitCommas cs with
    | []      => [[c]]
    | p :: ps => (c :: p) :: ps

/-- The text before the first `->`, and the text after it where there is one. -/
def splitArrow : List Char → List Char × Option (List Char)
  | []               => ([], none)
  | '-' :: '>' :: cs => ([], some cs)
  | c :: cs          => (c :: (splitArrow cs).1, (splitArrow cs).2)

/-- The request a text names: a mnemonic and its operands (`30_encoding.md` R59). -/
def parseRequest (t : List Char) : Option ListingRequest :=
  let name := t.takeWhile (fun c => !isBlank c)
  let operands := (splitCommas (t.dropWhile (fun c => !isBlank c))).map trimBlanks
  match operands with
  | [a] =>
    match number a with
    | none   => none
    | some a =>
      if name = ['R', 'B'] then some (.rb a)
      else if name = ['R', 'W'] then some (.rw a)
      else if name = ['R', 'D'] then some (.rd a)
      else none
  | [a, v] =>
    match number a, number v with
    | some a, some v =>
      if name = ['W', 'B'] then some (.wb a v)
      else if name = ['W', 'W'] then some (.ww a v)
      else if name = ['W', 'D'] then some (.wd a v)
      else none
    | _, _ => none
  | [c, a, v] =>
    match commandNumber c, number a, number v with
    | some c, some a, some v => if name = ['R', 'E', 'Q'] then some (.req c a v) else none
    | _, _, _ => none
  | _ => none

/-- The word that names the fault OutOfBounds in a listing. -/
def outOfBoundsName : List Char := ['O', 'u', 't', 'O', 'f', 'B', 'o', 'u', 'n', 'd', 's']

/-- The word that names the fault IllegalCommand in a listing. -/
def illegalCommandName : List Char :=
  ['I', 'l', 'l', 'e', 'g', 'a', 'l', 'C', 'o', 'm', 'm', 'a', 'n', 'd']

/-- The expected response a text names (`30_encoding.md` R59). -/
def parseExpected (t : List Char) : Option Expected :=
  let name := t.takeWhile (fun c => !isBlank c)
  let rest := trimBlanks (t.dropWhile (fun c => !isBlank c))
  if name = outOfBoundsName then
    match rest with
    | '@' :: a => (number a).map .outOfBounds
    | _        => none
  else if rest ≠ [] then none
  else if name = ['o', 'k'] then some .ok
  else if name = illegalCommandName then some .illegalCommand
  else (number name).map .value

/-- The width in bytes of the values a request's line may show. -/
def listingWidth : ListingRequest → Nat
  | .rb _      => 1
  | .rw _      => 2
  | .rd _      => 4
  | .wb _ _    => 1
  | .ww _ _    => 2
  | .wd _ _    => 4
  | .req _ _ _ => 4

/-- Every number of an entry fits, those of the expected response too (`30_encoding.md` R59). -/
def ListingEntry.wellFormed (e : ListingEntry) : Bool :=
  e.request.wellFormed &&
    match e.expected with
    | none                  => true
    | some (.value n)       => valueFits (listingWidth e.request) n
    | some .ok              => true
    | some (.outOfBounds a) => addrFits a
    | some .illegalCommand  => true

/-- A text as an entry, its form read and its numbers checked. -/
def parseEntry (t : List Char) : Option ListingEntry :=
  match parseRequest (trimBlanks (splitArrow t).1) with
  | none   => none
  | some r =>
    match (splitArrow t).2 with
    | none   => if ListingEntry.wellFormed ⟨r, none⟩ then some ⟨r, none⟩ else none
    | some x =>
      match parseExpected (trimBlanks x) with
      | none   => none
      | some p => if ListingEntry.wellFormed ⟨r, some p⟩ then some ⟨r, some p⟩ else none

/-- One line of a listing; `;` starts a comment (`30_encoding.md` R59). -/
def parseLine (t : List Char) : ListingLine :=
  let body := trimBlanks (t.takeWhile (fun c => c != ';'))
  if body = [] then .blank
  else
    match parseEntry body with
    | none   => .refused
    | some e => .entry e

/-- A listing, line by line; one refused line refuses the listing (`30_encoding.md` R59). -/
def parseListing : List (List Char) → Option (List ListingEntry)
  | []      => some []
  | t :: ts =>
    match parseLine t, parseListing ts with
    | .blank,   some es => some es
    | .entry e, some es => some (e :: es)
    | .refused, _       => none
    | _,        none    => none

/-- The request a listing request stands for: exactly one (`30_encoding.md` R60); refused where a number does not fit
(R59). -/
def assemble (r : ListingRequest) : Option Request :=
  if r.wellFormed then
    match r with
    | .rb a      => some (encode (.rb (BitVec.ofNat 16 a)))
    | .rw a      => some (encode (.rw (BitVec.ofNat 16 a)))
    | .rd a      => some (encode (.rd (BitVec.ofNat 16 a)))
    | .wb a v    => some (encode (.wb (BitVec.ofNat 16 a) (BitVec.ofNat 8 v)))
    | .ww a v    => some (encode (.ww (BitVec.ofNat 16 a) (BitVec.ofNat 16 v)))
    | .wd a v    => some (encode (.wd (BitVec.ofNat 16 a) (BitVec.ofNat 32 v)))
    | .req c a v => some ⟨BitVec.ofNat 3 c, BitVec.ofNat 16 a, BitVec.ofNat 32 v⟩
  else none

/-- A response is the one a listing shows (`30_encoding.md` R59). -/
def Expected.agrees : Expected → Response → Bool
  | .value n,       .value v                  => v.toNat = n
  | .ok,            .done                     => true
  | .outOfBounds a, .fault .outOfBounds fa    => fa.toNat = a
  | .illegalCommand, .fault .illegalCommand _ => true
  | _,              _                         => false

/-- The stream a listing sends, one request an entry (`30_encoding.md` R60); none where a number does not fit. -/
def listingInputs : List ListingEntry → Option (List Input)
  | []      => some []
  | e :: es =>
    match assemble e.request, listingInputs es with
    | some r, some ins => some (.request r :: ins)
    | _,      _        => none

/-- The responses are those the listing shows, entry by entry (`30_encoding.md` R59). -/
def listingAgrees : List ListingEntry → List Response → Bool
  | [],                 []      => true
  | ⟨_, none⟩ :: es,    _ :: rs => listingAgrees es rs
  | ⟨_, some x⟩ :: es,  r :: rs => x.agrees r && listingAgrees es rs
  | [],                 _ :: _  => false
  | _ :: _,             []      => false

end Sys2Proof.Machine
end

