-- ==== Sys2Proof/Machine/System.lean ====
section
/-!
DEFINITION. A system built on the block: it "takes `OOB_POLICY` as an argument" (`60_exceptions.md` R74). The block itself
(`step`) does not depend on the policy (`00_scope.md` R8).
-/

namespace Sys2Proof.Machine

/-- The address of the first OutOfBounds fault among the responses. -/
def firstOutOfBounds : List Response → Option Addr
  | []                          => none
  | .fault .outOfBounds fa :: _ => some fa
  | .fault .illegalCommand _ :: rs => firstOutOfBounds rs
  | .value _ :: rs              => firstOutOfBounds rs
  | .done :: rs                 => firstOutOfBounds rs

/-- One step of the system under a policy: as the block steps, until a response reports OutOfBounds; then `halt` stops the
system, and what `integratorDefined` does is not given (`92_eei_decisions.md` D7, log 12). DESIGN CHOICE (log 12): a reset
event waiting in the stream is not taken by a stopped system. The spec leaves open whether a reset input restarts it:
`70_reset_and_hazards.md` R84 says only that a session begins at reset. -/
def systemStep (policy : Config.OobPolicy) (s : State) : Host.Outcome State Fault Refusal :=
  match firstOutOfBounds s.responses, policy with
  | none,    _                  => step s
  | some fa, .halt              => .fault (.haltedByPolicy fa)
  | some _,  .integratorDefined => .refused .integratorPolicyNotGiven

end Sys2Proof.Machine
end

