-- ==== Sys2Proof/Safety.lean ====
section
/-!
DEFINITION. The terms claims use: the invariant of the state, the fault mark of a run (`92_eei_decisions.md` D7), and the
history of a cell, which says without the machine what a cell must hold (`20_memory.md` R45).
-/

namespace Sys2Proof.Machine

/-- A store's memory is in canonical form and lists no offset the store does not have. -/
def storeWf (size : Nat) (m : Memory) : Bool := Memory.wf m && Memory.inside size m

/-- The invariant of the block: every store is `storeWf` for its size (`10_state.md` R13). -/
def Block.wf (b : Block) : Bool :=
  storeWf Config.vramSize b.vram && storeWf Config.eramSize b.eram && storeWf Config.wramSize b.wram
    && storeWf Config.oamSize b.oam

/-- The invariant of the machine. -/
def State.wf (s : State) : Bool := s.block.wf

/-- `n` steps, stopping where a step gives no next state. -/
def runSteps : Nat → State → Host.Outcome State Fault Refusal
  | 0,     s => .next s
  | n + 1, s =>
    match step s with
    | .next t    => runSteps n t
    | .fault r   => .fault r
    | .refused r => .refused r

/-- The fault mark: some request so far was answered with a fault (`60_exceptions.md` R74). -/
def State.faulted (s : State) : Bool := s.responses.any Response.isFault

/-- A good final state: the whole stream is performed and no request faulted; "a faulted run is never a good final state"
(`92_eei_decisions.md` D7). -/
def State.goodFinal (s : State) : Bool := s.inputs.isEmpty && !s.faulted

/-- The address is in a window (`20_memory.md` R26). -/
def isMapped (a : Addr) : Bool := (cellOf a).isSome

/-- The bytes an instruction writes where every byte is mapped, byte 0 first (`30_encoding.md` R54). -/
def writtenBytes : Instr → List Byte
  | .rb _          => []
  | .rw _          => []
  | .rd _          => []
  | .wb _ v        => [v]
  | .ww _ v        => [v.extractLsb' 0 8, v.extractLsb' 8 8]
  | .wd _ v        => [v.extractLsb' 0 8, v.extractLsb' 8 8, v.extractLsb' 16 8, v.extractLsb' 24 8]
  | .reserved011 _ => []
  | .reserved111 _ => []

/-- The byte writes that land, in order: those before the first unmapped byte (`20_memory.md` R40). -/
def landedFrom (a : Addr) : List Byte → Nat → List (CellRef × Byte)
  | [],      _ => []
  | v :: vs, i =>
    match cellOf (byteAddr a i) with
    | none   => []
    | some c => (c, v) :: landedFrom a vs (i + 1)

/-- The byte writes of an instruction that land (`20_memory.md` R40). -/
def landedWrites (i : Instr) : List (CellRef × Byte) := landedFrom i.addr (writtenBytes i) 0

/-- What a cell that held `old` holds after some byte writes: the last one to it (`20_memory.md` R45). -/
def lastWritten (c : CellRef) (old : Byte) : List (CellRef × Byte) → Byte
  | []      => old
  | w :: ws => lastWritten c (if w.1 = c then w.2 else old) ws

/-- What a cell that held `old` holds after a stream: "the last byte write to that cell earlier in that order, or 0x00 if
no write has reached it since reset" (`20_memory.md` R45). -/
def cellHistory (c : CellRef) (old : Byte) : List Input → Byte
  | []               => old
  | .reset :: ins     => cellHistory c 0x00#8 ins
  | .request r :: ins => cellHistory c (lastWritten c old (landedWrites (decode r))) ins

/-- How many requests a stream holds; a reset event is none. -/
def requestCount : List Input → Nat
  | []               => 0
  | .reset :: ins     => requestCount ins
  | .request _ :: ins => requestCount ins + 1

/-- The byte a cell holds. -/
def cellByte (b : Block) (c : CellRef) : Byte := storeRead b c.store c.off

/-- The instruction is one of the three writes (`10_state.md` R24). -/
def isWrite : Instr → Bool
  | .wb _ _        => true
  | .ww _ _        => true
  | .wd _ _        => true
  | .rb _          => false
  | .rw _          => false
  | .rd _          => false
  | .reserved011 _ => false
  | .reserved111 _ => false

/-- How many bytes an instruction accesses; a reserved command accesses none (`30_encoding.md` R61). -/
def accessCount : Instr → Nat
  | .rb _          => 1
  | .rw _          => 2
  | .rd _          => 4
  | .wb _ _        => 1
  | .ww _ _        => 2
  | .wd _ _        => 4
  | .reserved011 _ => 0
  | .reserved111 _ => 0

end Sys2Proof.Machine
end

