-- ==== Sys2Proof/Certificates/Slice0/Obligations.lean ====
section
/-!
DEFINITION. The statements for the provers, in the order of the spec's files. Each docstring names the rule it formalises,
or says which decision or derivation of the spec, or which choice of the model (a log entry), it rests on.
-/

open Sys2Proof Sys2Proof.Machine

/-! ## Encoding -/

/-- A request word written out from the spec's own encodings (`30_encoding.md` R51, R61; `95_test_vectors.md` 2.7 and 2.5)
decodes to the request it stands for. The encoding is the spec's own decision D2. -/
def Obligations.WrittenOutRequestWordsDecode : Prop :=
  decodeTableWord 56 0x0E01000000000 = some (.rb 0xE010#16) ∧
  decodeTableWord 56 0x19FFF00000000 = some (.rw 0x9FFF#16) ∧
  decodeTableWord 56 0x2800000000000 = some (.rd 0x8000#16) ∧
  decodeTableWord 56 0x4C01000000042 = some (.wb 0xC010#16 0x42#8) ∧
  decodeTableWord 56 0x5FE9F0000A55A = some (.ww 0xFE9F#16 0xA55A#16) ∧
  decodeTableWord 56 0x69FFE11223344 = some (.wd 0x9FFE#16 0x11223344#32) ∧
  decodeTableWord 56 0x38000000000FF = some (.reserved011 0x8000#16) ∧
  decodeTableWord 56 0x78000000000FF = some (.reserved111 0x8000#16)

/-- Every instruction is read back from its request, from its 51-bit word and from its seven bytes: no operand bit is
dropped (`30_encoding.md` R51, R54, R61, decision D2; the seven-byte form is the model's, log 10). -/
def Obligations.DecodeOfEncodeIsTheInstruction : Prop :=
  ∀ i : Instr,
    decode (encode i) = i ∧
    decode (requestOfWord (encode i).word) = i ∧
    decodeBytes (encodeBytes i) = .ok i

/-- Two requests are the same instruction exactly when they agree on the command, the address and the bits of `wdata` the
command uses: `wdata[8n-1:0]` of an n-byte write (`30_encoding.md` R54, R61, decision D4), none of a read (R51, decision
D2), and none of a reserved command. That `wdata` of a reserved command is ignored is the model's deduction from R57 and
decision D3: such a request is no operation and changes no state (log 11). -/
def Obligations.OnlyUsedBitsOfARequestMatter : Prop :=
  ∀ r q : Request,
    decode r = decode q ↔
      r.cmd = q.cmd ∧ r.addr = q.addr ∧
      (r.cmd = 0b100#3 → ∀ j < 8, r.wdata.getLsbD j = q.wdata.getLsbD j) ∧
      (r.cmd = 0b101#3 → ∀ j < 16, r.wdata.getLsbD j = q.wdata.getLsbD j) ∧
      (r.cmd = 0b110#3 → r.wdata = q.wdata)

/-- The request word: `cmd` is bits 50:48, `addr` bits 47:32, `wdata` bits 31:0, and the fields of a word are read back
(`30_encoding.md` R51, decision D2). -/
def Obligations.RequestWordHoldsItsFields : Prop :=
  ∀ (r : Request) (w : BitVec 51),
    r.word.toNat = r.cmd.toNat * 2 ^ 48 + r.addr.toNat * 2 ^ 32 + r.wdata.toNat ∧
    requestOfWord r.word = r ∧ (requestOfWord w).word = w

/-- Bytes that are not the seven bytes of a 51-bit word are rejected by name, and all others decode (model's choice,
log 10). -/
def Obligations.OnlyRequestBytesDecode : Prop :=
  ∀ bs : List Byte,
    (bs.length ≠ 7 → decodeBytes bs = .error .wrongByteCount) ∧
    (bs.length = 7 → 2 ^ 51 ≤ natOfBytes bs → decodeBytes bs = .error .bitAboveRequest) ∧
    (bs.length = 7 → natOfBytes bs < 2 ^ 51 → ∃ i, decodeBytes bs = .ok i)

/-- A listing request is assembled exactly when its numbers fit, and then into one request with just those numbers
(`30_encoding.md` R59, R60, decision D11). -/
def Obligations.ListingNumbersThatDoNotFitAreRefused : Prop :=
  ∀ a v c : Nat,
    (2 ^ 16 ≤ a → assemble (.rb a) = none ∧ assemble (.rw a) = none ∧ assemble (.rd a) = none ∧
      assemble (.wb a v) = none ∧ assemble (.ww a v) = none ∧ assemble (.wd a v) = none ∧
      assemble (.req c a v) = none) ∧
    (2 ^ 8 ≤ v → assemble (.wb a v) = none) ∧
    (2 ^ 16 ≤ v → assemble (.ww a v) = none) ∧
    (2 ^ 32 ≤ v → assemble (.wd a v) = none ∧ assemble (.req c a v) = none) ∧
    (2 ^ 3 ≤ c → assemble (.req c a v) = none) ∧
    (a < 2 ^ 16 →
      (∃ r, assemble (.rb a) = some r ∧ ∃ x, decode r = .rb x ∧ x.toNat = a) ∧
      (∃ r, assemble (.rw a) = some r ∧ ∃ x, decode r = .rw x ∧ x.toNat = a) ∧
      (∃ r, assemble (.rd a) = some r ∧ ∃ x, decode r = .rd x ∧ x.toNat = a) ∧
      (v < 2 ^ 8 → ∃ r, assemble (.wb a v) = some r ∧ ∃ x y, decode r = .wb x y ∧ x.toNat = a ∧ y.toNat = v) ∧
      (v < 2 ^ 16 → ∃ r, assemble (.ww a v) = some r ∧ ∃ x y, decode r = .ww x y ∧ x.toNat = a ∧ y.toNat = v) ∧
      (v < 2 ^ 32 → ∃ r, assemble (.wd a v) = some r ∧ ∃ x y, decode r = .wd x y ∧ x.toNat = a ∧ y.toNat = v) ∧
      (v < 2 ^ 32 → c < 2 ^ 3 →
        ∃ r, assemble (.req c a v) = some r ∧ r.cmd.toNat = c ∧ r.addr.toNat = a ∧ r.wdata.toNat = v))

/-! ## Address decode -/

/-- The decoder's answer at every address, range by range, with the offset as the address less the window's first address
(`20_memory.md` R30, with R26 for the unmapped rest; the offsets into VRAM, ERAM and OAM are the spec's decision D5). -/
def Obligations.AddressDecoderFollowsTheMap : Prop :=
  ∀ a : Addr,
    (0x8000 ≤ a.toNat → a.toNat ≤ 0x9FFF → decodeAddr a = .mapped .vram .vram (BitVec.ofNat 13 (a.toNat - 0x8000))) ∧
    (0xA000 ≤ a.toNat → a.toNat ≤ 0xBFFF → decodeAddr a = .mapped .eram .eram (BitVec.ofNat 13 (a.toNat - 0xA000))) ∧
    (0xC000 ≤ a.toNat → a.toNat ≤ 0xDFFF → decodeAddr a = .mapped .wram .wram (BitVec.ofNat 13 (a.toNat - 0xC000))) ∧
    (0xE000 ≤ a.toNat → a.toNat ≤ 0xFDFF → decodeAddr a = .mapped .echo .wram (BitVec.ofNat 13 (a.toNat - 0xE000))) ∧
    (0xFE00 ≤ a.toNat → a.toNat ≤ 0xFE9F → decodeAddr a = .mapped .oam .oam (BitVec.ofNat 13 (a.toNat - 0xFE00))) ∧
    (a.toNat = 0xFFFF → decodeAddr a = .mapped .ie .ie 0#13) ∧
    (a.toNat ≤ 0x7FFF ∨ (0xFEA0 ≤ a.toNat ∧ a.toNat ≤ 0xFFFE) → decodeAddr a = .unmapped)

/-- The window table is what the decoder decides: an address is in a window's closed interval exactly when the decoder
answers that window, with the window's store and the offset from its first address; no two windows share an address; each
interval has the window's size (`20_memory.md` R25, R27, R29; the spec marks the disjointness of the six windows as
derived). The offsets into `vram`, `eram` and `oam` are the spec's decision D5 (`20_memory.md` R31). -/
def Obligations.TheWindowTableIsWhatTheDecoderDecides : Prop :=
  ∀ (a : Addr) (w : Window),
    (w.first ≤ a ∧ a ≤ w.last ↔ ∃ st off, decodeAddr a = .mapped w st off) ∧
    (∀ st off, decodeAddr a = .mapped w st off → st = w.store ∧ off.toNat = a.toNat - w.first.toNat) ∧
    (∀ w', w' ≠ w → w.first ≤ a → a ≤ w.last → ¬ (w'.first ≤ a ∧ a ≤ w'.last)) ∧
    w.last.toNat + 1 = w.first.toNat + w.size

/-- The primary window's offset is `addr - 0xC000`, over 0x0000-0x1FFF (`20_memory.md` R32). -/
def Obligations.PrimaryWindowOffset : Prop :=
  ∀ a : Addr, 0xC000 ≤ a.toNat → a.toNat ≤ 0xDFFF →
    ∃ off : Off, cellOf a = some ⟨.wram, off⟩ ∧ off.toNat = a.toNat - 0xC000

/-- The bit tests of the gate-level form give the decoder's answer at every address (`20_memory.md` R36, which the spec
marks as derived). The offsets into `vram`, `eram` and `oam` are the spec's decision D5 (`20_memory.md` R31). -/
def Obligations.GateLevelDecoderIsTheDecoder : Prop :=
  ∀ a : Addr, decodeAddrGates a = decodeAddr a

/-- How many addresses below a bound are mapped: those of 0x8000-0xFE9F and 0xFFFF; of all 65,536 addresses 32,417 are
mapped and 33,119 are not (`00_scope.md` R8 and `20_memory.md` R26, which the spec marks as derived). -/
def Obligations.MappedAddressesAreCounted : Prop :=
  ∀ n, n ≤ 65536 →
    ((List.range n).filter (fun k => isMapped (BitVec.ofNat 16 k))).length = (min n 0xFEA0 - 0x8000) + (n - 0xFFFF) ∧
    (n = 65536 →
      ((List.range n).filter (fun k => isMapped (BitVec.ofNat 16 k))).length = 32417 ∧
      ((List.range n).filter (fun k => !isMapped (BitVec.ofNat 16 k))).length = 33119)

/-- Two addresses select one cell only as a primary and an echo address of the same `wram[k]`, k < 0x1E00, and every cell
of every store is selected by some address (`20_memory.md` R27, which the spec marks as derived; `10_state.md` R22). The
offsets into `vram`, `eram` and `oam` are the spec's decision D5 (`20_memory.md` R31). -/
def Obligations.OnlyTheEchoReachesACellTwice : Prop :=
  (∀ (a a' : Addr) (c : CellRef), cellOf a = some c → cellOf a' = some c → a ≠ a' →
    c.store = .wram ∧ c.off.toNat < 0x1E00 ∧
      ((a.toNat = 0xC000 + c.off.toNat ∧ a'.toNat = 0xE000 + c.off.toNat) ∨
       (a.toNat = 0xE000 + c.off.toNat ∧ a'.toNat = 0xC000 + c.off.toNat))) ∧
  (∀ c : CellRef, c.off.toNat < c.store.size → ∃ a, cellOf a = some c)

/-- The region-select output at every address (`30_encoding.md` R55, decision D13); 0b111 is never produced. The offsets
into `vram`, `eram` and `oam` are the spec's decision D5 (`20_memory.md` R31). -/
def Obligations.RegionSelectOutputs : Prop :=
  ∀ a : Addr,
    (a.toNat ≤ 0x7FFF ∨ (0xFEA0 ≤ a.toNat ∧ a.toNat ≤ 0xFFFE) → regionSel a = 0b000#3 ∧ (regionOff a).toNat = 0) ∧
    (0x8000 ≤ a.toNat ∧ a.toNat ≤ 0x9FFF → regionSel a = 0b001#3 ∧ (regionOff a).toNat = a.toNat - 0x8000) ∧
    (0xA000 ≤ a.toNat ∧ a.toNat ≤ 0xBFFF → regionSel a = 0b010#3 ∧ (regionOff a).toNat = a.toNat - 0xA000) ∧
    (0xC000 ≤ a.toNat ∧ a.toNat ≤ 0xDFFF → regionSel a = 0b011#3 ∧ (regionOff a).toNat = a.toNat - 0xC000) ∧
    (0xE000 ≤ a.toNat ∧ a.toNat ≤ 0xFDFF → regionSel a = 0b100#3 ∧ (regionOff a).toNat = a.toNat - 0xE000) ∧
    (0xFE00 ≤ a.toNat ∧ a.toNat ≤ 0xFE9F → regionSel a = 0b101#3 ∧ (regionOff a).toNat = a.toNat - 0xFE00) ∧
    (a.toNat = 0xFFFF → regionSel a = 0b110#3 ∧ (regionOff a).toNat = 0) ∧
    regionSel a ≠ 0b111#3

/-- The store selects derived from `sel` pick the store of the cell the address selects, and none where it is unmapped
(`30_encoding.md` R56, which the spec marks as derived). -/
def Obligations.StoreSelectsPickTheCellsStore : Prop :=
  ∀ (a : Addr) (st : Store),
    storeSelect st (regionSel a) = true ↔ ∃ off, cellOf a = some ⟨st, off⟩ ∧ regionOff a = off

/-! ## Stores and reset -/

/-- `StoreRead` and `StoreWrite` reach the named array's byte, and a write changes exactly the one cell it names
(`20_memory.md` R35). Canonical stores (the model's form, log 8). -/
def Obligations.StoreWriteChangesExactlyItsCell : Prop :=
  ∀ (b : Block) (off : Off) (v : Byte),
    (storeRead b .vram off = Memory.read b.vram off.toNat ∧ storeRead b .eram off = Memory.read b.eram off.toNat ∧
      storeRead b .wram off = Memory.read b.wram off.toNat ∧ storeRead b .oam off = Memory.read b.oam off.toNat ∧
      storeRead b .ie off = b.ie) ∧
    (b.wf = true → ∀ st : Store, off.toNat < st.size →
      storeRead (storeWrite b st off v) st off = v ∧
      ∀ (st' : Store) (off' : Off), off'.toNat < st'.size → (st' ≠ st ∨ off' ≠ off) →
        storeRead (storeWrite b st off v) st' off' = storeRead b st' off')

/-- Two blocks that answer every address alike are the same block: no cell is out of reach and the stores' form is
canonical (model's representation, log 8; `10_state.md` R22). -/
def Obligations.BlocksThatReadAlikeAreEqual : Prop :=
  ∀ b b' : Block, b.wf = true → b'.wf = true → (∀ a, byteAt b a = byteAt b' a) → b = b'

/-- After `new()` every byte of every store and `ie` is 0x00: a byte read gives 0x00 at every mapped address, a word or
double-word read 0 at every start that completes (`70_reset_and_hazards.md` R85). -/
def Obligations.AfterConstructionEverythingReadsZero : Prop :=
  ∀ (s : State) (a : Addr) (st : Store) (off : Off), s.block = Block.new →
    storeRead s.block st off = 0x00#8 ∧
    (isMapped a = true → exec (.rb a) s = .next (s.respond (.value 0x00000000#32))) ∧
    (0x8000 ≤ a.toNat → a.toNat ≤ 0xFE9E → exec (.rw a) s = .next (s.respond (.value 0x00000000#32))) ∧
    (0x8000 ≤ a.toNat → a.toNat ≤ 0xFE9C → exec (.rd a) s = .next (s.respond (.value 0x00000000#32)))

/-- The machine starts as construction leaves it, and a reset event does to the block what construction does; it has no
response and takes nothing else from the stream (`70_reset_and_hazards.md` R84, decision D8; log 2, 4 and 5). -/
def Obligations.ResetInputIsConstruction : Prop :=
  State.reset = { block := Block.new, inputs := [], responses := [] } ∧
  ∀ (s : State) (rest : List Input), s.inputs = .reset :: rest →
    step s = .next { block := Block.new, inputs := rest, responses := s.responses }

/-- The interrupt-enable register: it is 0x00 after reset, a write of 0xFFFF sets all eight bits of `ie` and nothing else,
and a read returns exactly them (`10_state.md` R18). -/
def Obligations.InterruptEnableIsPlainStorage : Prop :=
  State.reset.block.ie = 0x00#8 ∧
  ∀ (s : State) (v : Byte),
    exec (.wb 0xFFFF#16 v) s = .next ({ s with block := { s.block with ie := v } }.respond .done) ∧
    exec (.rb 0xFFFF#16) s = .next (s.respond (.value (s.block.ie.setWidth 32)))

/-! ## The six operations -/

/-- read_byte at every address: the byte of the selected store, zero-extended, and nothing changed; OutOfBounds at every
unmapped address, and nothing changed (`40_byte_access.md` R62). The offsets into `vram`, `eram` and `oam` are the spec's
decision D5 (`20_memory.md` R31), the zero extension is D4, that the fault carries the address is D6 (log 7); that a fault
is a next state with a response, and not a stop, is the model's reading (log 1). -/
def Obligations.ReadByteReturnsTheSelectedByte : Prop :=
  ∀ (s : State) (a : Addr),
    (0x8000 ≤ a.toNat → a.toNat ≤ 0x9FFF →
      exec (.rb a) s = .next (s.respond (.value ((Memory.read s.block.vram (a.toNat - 0x8000)).setWidth 32)))) ∧
    (0xA000 ≤ a.toNat → a.toNat ≤ 0xBFFF →
      exec (.rb a) s = .next (s.respond (.value ((Memory.read s.block.eram (a.toNat - 0xA000)).setWidth 32)))) ∧
    (0xC000 ≤ a.toNat → a.toNat ≤ 0xDFFF →
      exec (.rb a) s = .next (s.respond (.value ((Memory.read s.block.wram (a.toNat - 0xC000)).setWidth 32)))) ∧
    (0xE000 ≤ a.toNat → a.toNat ≤ 0xFDFF →
      exec (.rb a) s = .next (s.respond (.value ((Memory.read s.block.wram (a.toNat - 0xE000)).setWidth 32)))) ∧
    (0xFE00 ≤ a.toNat → a.toNat ≤ 0xFE9F →
      exec (.rb a) s = .next (s.respond (.value ((Memory.read s.block.oam (a.toNat - 0xFE00)).setWidth 32)))) ∧
    (a.toNat = 0xFFFF → exec (.rb a) s = .next (s.respond (.value (s.block.ie.setWidth 32)))) ∧
    (a.toNat ≤ 0x7FFF ∨ (0xFEA0 ≤ a.toNat ∧ a.toNat ≤ 0xFFFE) →
      exec (.rb a) s = .next (s.respond (.fault .outOfBounds a)))

/-- write_byte at every address: the selected byte holds the value, every byte of every other cell is as before, and the
write is answered; OutOfBounds at every unmapped address, and nothing changed (`40_byte_access.md` R63). That the fault
carries the address is the spec's decision D6 (log 7); that a fault is a next state with a response, and not a stop, is
the model's reading (log 1). -/
def Obligations.WriteByteChangesExactlyOneByte : Prop :=
  ∀ (s : State) (a : Addr) (v : Byte), s.wf = true →
    ((0x8000 ≤ a.toNat ∧ a.toNat ≤ 0xFE9F) ∨ a.toNat = 0xFFFF →
      ∃ t, exec (.wb a v) s = .next t ∧ byteAt t.block a = some v ∧
        (∀ d, cellOf d ≠ cellOf a → byteAt t.block d = byteAt s.block d) ∧
        t.inputs = s.inputs ∧ t.responses = s.responses ++ [.done]) ∧
    (a.toNat ≤ 0x7FFF ∨ (0xFEA0 ≤ a.toNat ∧ a.toNat ≤ 0xFFFE) →
      exec (.wb a v) s = .next (s.respond (.fault .outOfBounds a)))

/-- read_word at every address: `{hi, lo}` of the bytes at `addr` and `addr ⊕ 1`, or OutOfBounds at the first unmapped
one; nothing changes; it is `MemRead(addr, 2)` (`41_multibyte_access.md` R65). That the fault carries the address is the
spec's decision D6 (log 7); that a fault is a next state with a response, and not a stop, is the model's reading (log 1).
-/
def Obligations.ReadWordComposesTwoBytes : Prop :=
  ∀ (s : State) (a : Addr),
    exec (.rw a) s = answerRead s 2 (memRead s.block a 2) ∧
    (0x8000 ≤ a.toNat → a.toNat ≤ 0xFE9E →
      ∃ lo hi : Byte, byteAt s.block a = some lo ∧ byteAt s.block (a + 1#16) = some hi ∧
        exec (.rw a) s = .next (s.respond (.value ((hi ++ lo).setWidth 32)))) ∧
    (a.toNat = 0xFE9F → exec (.rw a) s = .next (s.respond (.fault .outOfBounds 0xFEA0#16))) ∧
    (a.toNat = 0xFFFF → exec (.rw a) s = .next (s.respond (.fault .outOfBounds 0x0000#16))) ∧
    (a.toNat ≤ 0x7FFF ∨ (0xFEA0 ≤ a.toNat ∧ a.toNat ≤ 0xFFFE) →
      exec (.rw a) s = .next (s.respond (.fault .outOfBounds a)))

/-- write_word at every address: both bytes written, low byte first, and nothing else; at 0xFE9F and 0xFFFF the low byte
stays written and the second raises OutOfBounds; at an unmapped start nothing is written; it is `MemWrite(addr, 2, value)`
(`41_multibyte_access.md` R66). That the fault carries the address is the spec's decision D6 (log 7); that a fault is a
next state with a response, and not a stop, is the model's reading (log 1). -/
def Obligations.WriteWordWritesItsBytesInOrder : Prop :=
  ∀ (s : State) (a : Addr) (v : Half), s.wf = true →
    exec (.ww a v) s = answerWrite s (memWrite s.block a 2 (v.setWidth 32)) ∧
    (0x8000 ≤ a.toNat → a.toNat ≤ 0xFE9E →
      ∃ t, exec (.ww a v) s = .next t ∧
        byteAt t.block a = some (v.extractLsb' 0 8) ∧ byteAt t.block (a + 1#16) = some (v.extractLsb' 8 8) ∧
        (∀ d, cellOf d ≠ cellOf a → cellOf d ≠ cellOf (a + 1#16) → byteAt t.block d = byteAt s.block d) ∧
        t.inputs = s.inputs ∧ t.responses = s.responses ++ [.done]) ∧
    (a.toNat = 0xFE9F ∨ a.toNat = 0xFFFF →
      ∃ t, exec (.ww a v) s = .next t ∧
        byteAt t.block a = some (v.extractLsb' 0 8) ∧
        (∀ d, cellOf d ≠ cellOf a → byteAt t.block d = byteAt s.block d) ∧
        t.inputs = s.inputs ∧ t.responses = s.responses ++ [.fault .outOfBounds (a + 1#16)]) ∧
    (a.toNat ≤ 0x7FFF ∨ (0xFEA0 ≤ a.toNat ∧ a.toNat ≤ 0xFFFE) →
      exec (.ww a v) s = .next (s.respond (.fault .outOfBounds a)))

/-- read_dword at every address: `{b3, b2, b1, b0}` of the four bytes, or OutOfBounds at the first unmapped one; nothing
changes; it is `MemRead(addr, 4)` (`41_multibyte_access.md` R67). That the fault carries the address is the spec's
decision D6 (log 7); that a fault is a next state with a response, and not a stop, is the model's reading (log 1). -/
def Obligations.ReadDwordComposesFourBytes : Prop :=
  ∀ (s : State) (a : Addr),
    exec (.rd a) s = answerRead s 4 (memRead s.block a 4) ∧
    (0x8000 ≤ a.toNat → a.toNat ≤ 0xFE9C →
      ∃ b0 b1 b2 b3 : Byte, byteAt s.block a = some b0 ∧ byteAt s.block (a + 1#16) = some b1 ∧
        byteAt s.block (a + 2#16) = some b2 ∧ byteAt s.block (a + 3#16) = some b3 ∧
        exec (.rd a) s = .next (s.respond (.value (b3 ++ b2 ++ b1 ++ b0)))) ∧
    (0xFE9D ≤ a.toNat → a.toNat ≤ 0xFE9F →
      exec (.rd a) s = .next (s.respond (.fault .outOfBounds 0xFEA0#16))) ∧
    (a.toNat = 0xFFFF → exec (.rd a) s = .next (s.respond (.fault .outOfBounds 0x0000#16))) ∧
    (a.toNat ≤ 0x7FFF ∨ (0xFEA0 ≤ a.toNat ∧ a.toNat ≤ 0xFFFE) →
      exec (.rd a) s = .next (s.respond (.fault .outOfBounds a)))

/-- write_dword at every address: four bytes written in ascending order, and nothing else; where a byte is unmapped the
bytes before it stay written, and none after it is; it is `MemWrite(addr, 4, value)` (`41_multibyte_access.md` R68). That
the fault carries the address is the spec's decision D6 (log 7); that a fault is a next state with a response, and not a
stop, is the model's reading (log 1). -/
def Obligations.WriteDwordWritesItsBytesInOrder : Prop :=
  ∀ (s : State) (a : Addr) (v : Word), s.wf = true →
    exec (.wd a v) s = answerWrite s (memWrite s.block a 4 v) ∧
    (0x8000 ≤ a.toNat → a.toNat ≤ 0xFE9C →
      ∃ t, exec (.wd a v) s = .next t ∧
        byteAt t.block a = some (v.extractLsb' 0 8) ∧ byteAt t.block (a + 1#16) = some (v.extractLsb' 8 8) ∧
        byteAt t.block (a + 2#16) = some (v.extractLsb' 16 8) ∧ byteAt t.block (a + 3#16) = some (v.extractLsb' 24 8) ∧
        (∀ d, cellOf d ≠ cellOf a → cellOf d ≠ cellOf (a + 1#16) → cellOf d ≠ cellOf (a + 2#16) →
          cellOf d ≠ cellOf (a + 3#16) → byteAt t.block d = byteAt s.block d) ∧
        t.inputs = s.inputs ∧ t.responses = s.responses ++ [.done]) ∧
    (0xFE9D ≤ a.toNat → a.toNat ≤ 0xFE9F →
      ∃ t, exec (.wd a v) s = .next t ∧
        (∀ k, a.toNat + k ≤ 0xFE9F → byteAt t.block (a + BitVec.ofNat 16 k) = some (v.extractLsb' (8 * k) 8)) ∧
        (∀ d, (∀ k, a.toNat + k ≤ 0xFE9F → cellOf d ≠ cellOf (a + BitVec.ofNat 16 k)) →
          byteAt t.block d = byteAt s.block d) ∧
        t.inputs = s.inputs ∧ t.responses = s.responses ++ [.fault .outOfBounds 0xFEA0#16]) ∧
    (a.toNat = 0xFFFF →
      exec (.wd a v) s = .next ({ s with block := { s.block with ie := v.extractLsb' 0 8 } }.respond
        (.fault .outOfBounds 0x0000#16))) ∧
    (a.toNat ≤ 0x7FFF ∨ (0xFEA0 ≤ a.toNat ∧ a.toNat ≤ 0xFFFE) →
      exec (.wd a v) s = .next (s.respond (.fault .outOfBounds a)))

/-- `MemRead` for n in {1, 2, 4}: with every byte mapped, byte i of the value is the byte at `addr ⊕ i` and no bit above
them is set; otherwise the fault names the first unmapped byte. The block is unchanged (`20_memory.md` R39). That the
fault carries that byte's address is the spec's decision D6 (log 7). -/
def Obligations.MemReadReadsBytesInOrder : Prop :=
  ∀ (b : Block) (a : Addr) (n : Nat), n ∈ [1, 2, 4] →
    ((∀ k < n, isMapped (a + BitVec.ofNat 16 k) = true) →
      ∃ r : Word, memRead b a n = .ok b r ∧ r.toNat < 2 ^ (8 * n) ∧
        ∀ k < n, byteAt b (a + BitVec.ofNat 16 k) = some (r.extractLsb' (8 * k) 8)) ∧
    (∀ m < n, (∀ k < m, isMapped (a + BitVec.ofNat 16 k) = true) → isMapped (a + BitVec.ofNat 16 m) = false →
      memRead b a n = .fault b .outOfBounds (a + BitVec.ofNat 16 m))

/-- `MemWrite` for n in {1, 2, 4}: bytes in ascending order up to the first unmapped byte, which the fault names; those
before it hold their lanes of the value, and no other byte changes (`20_memory.md` R40, which marks it as derived that no
byte after the first unmapped one is written). That the fault carries that byte's address is the spec's decision D6 (log
7). -/
def Obligations.MemWriteStopsAtTheFirstUnmappedByte : Prop :=
  ∀ (b : Block) (a : Addr) (n : Nat) (v : Word), b.wf = true → n ∈ [1, 2, 4] →
    ((∀ k < n, isMapped (a + BitVec.ofNat 16 k) = true) →
      ∃ b', memWrite b a n v = .ok b' () ∧
        (∀ k < n, byteAt b' (a + BitVec.ofNat 16 k) = some (v.extractLsb' (8 * k) 8)) ∧
        ∀ d, (∀ k < n, cellOf d ≠ cellOf (a + BitVec.ofNat 16 k)) → byteAt b' d = byteAt b d) ∧
    (∀ m < n, (∀ k < m, isMapped (a + BitVec.ofNat 16 k) = true) → isMapped (a + BitVec.ofNat 16 m) = false →
      ∃ b', memWrite b a n v = .fault b' .outOfBounds (a + BitVec.ofNat 16 m) ∧
        (∀ k < m, byteAt b' (a + BitVec.ofNat 16 k) = some (v.extractLsb' (8 * k) 8)) ∧
        ∀ d, (∀ k < m, cellOf d ≠ cellOf (a + BitVec.ofNat 16 k)) → byteAt b' d = byteAt b d)

/-- The sequences of byte reads that the rules spell out for read_word and read_dword equal `MemRead`, on every path
(`41_multibyte_access.md` R65, R67). -/
def Obligations.ReadSequencesEqualMemRead : Prop :=
  ∀ (b : Block) (a : Addr),
    (∀ b' x, readWordByBytes b a = .ok b' x → memRead b a 2 = .ok b' (x.setWidth 32)) ∧
    (∀ b' c fa, readWordByBytes b a = .fault b' c fa → memRead b a 2 = .fault b' c fa) ∧
    readDwordByBytes b a = memRead b a 4

/-- The sequences of byte writes that the rules spell out for write_word and write_dword equal `MemWrite`, on every path
(`41_multibyte_access.md` R66, R68). -/
def Obligations.WriteSequencesEqualMemWrite : Prop :=
  ∀ (b : Block) (a : Addr) (x : Half) (v : Word),
    writeWordByBytes b a x = memWrite b a 2 (x.setWidth 32) ∧ writeDwordByBytes b a v = memWrite b a 4 v

/-- Little-endian at every width: after a word or double-word write that completes, a byte read at `addr ⊕ i` returns the
value's byte i; after byte writes, a word read returns `{byte at addr ⊕ 1, byte at addr}` (`20_memory.md` R37). -/
def Obligations.MixedWidthAccessesSeeTheSameBytes : Prop :=
  ∀ (s : State) (a : Addr), s.wf = true → 0x8000 ≤ a.toNat → a.toNat ≤ 0xFE9E →
    (∀ v : Half, ∃ t, exec (.ww a v) s = .next t ∧ ∀ k < 2,
      exec (.rb (a + BitVec.ofNat 16 k)) t = .next (t.respond (.value ((v.extractLsb' (8 * k) 8).setWidth 32)))) ∧
    (a.toNat ≤ 0xFE9C → ∀ v : Word, ∃ t, exec (.wd a v) s = .next t ∧ ∀ k < 4,
      exec (.rb (a + BitVec.ofNat 16 k)) t = .next (t.respond (.value ((v.extractLsb' (8 * k) 8).setWidth 32)))) ∧
    (∀ x y : Byte, ∃ t u, exec (.wb a x) s = .next t ∧ exec (.wb (a + 1#16) y) t = .next u ∧
      exec (.rw a) u = .next (u.respond (.value ((y ++ x).setWidth 32))))

/-- What was written is read back: a byte at every mapped address, a word at every start 0x8000-0xFE9E and a double word at
every start 0x8000-0xFE9C, across windows too (`95_test_vectors.md` E1, E4, E5). -/
def Obligations.ReadAfterWriteReturnsTheValue : Prop :=
  ∀ (s : State) (a : Addr), s.wf = true →
    (isMapped a = true → ∀ v : Byte, ∃ t, exec (.wb a v) s = .next t ∧
      exec (.rb a) t = .next (t.respond (.value (v.setWidth 32)))) ∧
    (0x8000 ≤ a.toNat → a.toNat ≤ 0xFE9E → ∀ v : Half, ∃ t, exec (.ww a v) s = .next t ∧
      exec (.rw a) t = .next (t.respond (.value (v.setWidth 32)))) ∧
    (0x8000 ≤ a.toNat → a.toNat ≤ 0xFE9C → ∀ v : Word, ∃ t, exec (.wd a v) s = .next t ∧
      exec (.rd a) t = .next (t.respond (.value v)))

/-- The echo: 0xC000 + k and 0xE000 + k (k < 0x1E00) select the cell `wram[k]`, and a write through either is seen by a
read through the other (`20_memory.md` R33). -/
def Obligations.EchoWindowAliasesWorkRam : Prop :=
  ∀ k, k < 0x1E00 →
    cellOf (BitVec.ofNat 16 (0xC000 + k)) = some ⟨.wram, BitVec.ofNat 13 k⟩ ∧
    cellOf (BitVec.ofNat 16 (0xE000 + k)) = some ⟨.wram, BitVec.ofNat 13 k⟩ ∧
    ∀ (s : State) (v : Byte), s.wf = true →
      (∃ t, exec (.wb (BitVec.ofNat 16 (0xC000 + k)) v) s = .next t ∧
        exec (.rb (BitVec.ofNat 16 (0xE000 + k))) t = .next (t.respond (.value (v.setWidth 32)))) ∧
      (∃ t, exec (.wb (BitVec.ofNat 16 (0xE000 + k)) v) s = .next t ∧
        exec (.rb (BitVec.ofNat 16 (0xC000 + k))) t = .next (t.respond (.value (v.setWidth 32))))

/-- The echo is partial: a write at 0xC000 + k for 0x1E00 ≤ k < 0x2000 reaches `wram[k]`, which only that primary address
reaches, and changes nothing that is read at any echo address; 0xFE00 is in `oam` (`20_memory.md` R34), at offset 0 by the
spec's decision D5 (R31). -/
def Obligations.EchoWindowDoesNotReachTheTail : Prop :=
  (∀ k, 0x1E00 ≤ k → k < 0x2000 →
    cellOf (BitVec.ofNat 16 (0xC000 + k)) = some ⟨.wram, BitVec.ofNat 13 k⟩ ∧
    (∀ a : Addr, cellOf a = some ⟨.wram, BitVec.ofNat 13 k⟩ → a.toNat = 0xC000 + k) ∧
    ∀ (s : State) (v : Byte), ∃ t, exec (.wb (BitVec.ofNat 16 (0xC000 + k)) v) s = .next t ∧
      ∀ e : Addr, 0xE000 ≤ e.toNat → e.toNat ≤ 0xFDFF →
        byteAt t.block e = byteAt s.block e) ∧
  cellOf 0xFE00#16 = some ⟨.oam, 0#13⟩

/-- A word at the last byte of a window whose successor is mapped writes into the next window (`20_memory.md` R44, which
the spec marks as derived). The offsets into `vram`, `eram` and `oam` are the spec's decision D5 (`20_memory.md` R31). -/
def Obligations.WordsCrossIntoTheNextWindow : Prop :=
  ∀ (s : State) (v : Half),
    exec (.ww 0x9FFF#16 v) s = .next ({ s with block := { s.block with
      vram := Memory.write s.block.vram 0x1FFF (v.extractLsb' 0 8),
      eram := Memory.write s.block.eram 0x0000 (v.extractLsb' 8 8) } }.respond .done) ∧
    exec (.ww 0xBFFF#16 v) s = .next ({ s with block := { s.block with
      eram := Memory.write s.block.eram 0x1FFF (v.extractLsb' 0 8),
      wram := Memory.write s.block.wram 0x0000 (v.extractLsb' 8 8) } }.respond .done) ∧
    exec (.ww 0xDFFF#16 v) s = .next ({ s with block := { s.block with
      wram := Memory.write (Memory.write s.block.wram 0x1FFF (v.extractLsb' 0 8)) 0x0000 (v.extractLsb' 8 8) } }.respond .done) ∧
    exec (.ww 0xFDFF#16 v) s = .next ({ s with block := { s.block with
      wram := Memory.write s.block.wram 0x1DFF (v.extractLsb' 0 8),
      oam := Memory.write s.block.oam 0x0000 (v.extractLsb' 8 8) } }.respond .done)

/-- Reads have no side effect, at any address and on any path, and a read repeated gives the same response (`20_memory.md`
R42); a write has no effect beyond the bytes it names, and repeated it leaves the block it leaves once (R42). The reserved
commands change nothing and repeat their response too (`30_encoding.md` R57, decision D3). That an instruction that
faulted is taken again, and gives the same fault, is decision D15 (`60_exceptions.md` R75) and the model's reading of it
(log 1). -/
def Obligations.ReadsArePureAndWritesIdempotent : Prop :=
  ∀ (i : Instr) (s t : State), s.wf = true → exec i s = .next t →
    (isWrite i = false → t.block = s.block) ∧
    (∀ d, (∀ k < accessCount i, cellOf d ≠ cellOf (i.addr + BitVec.ofNat 16 k)) →
      byteAt t.block d = byteAt s.block d) ∧
    ∃ u, exec i t = .next u ∧ u.block = t.block ∧
      (isWrite i = false → ∃ r, t.responses = s.responses ++ [r] ∧ u.responses = t.responses ++ [r])

/-- Over all instructions and inputs: a step changes the block only if it performs one of the three writes or takes a reset;
a write changes no byte but those of the cells of its accessed addresses (`10_state.md` R24). -/
def Obligations.OnlyWritesAndResetChangeTheBlock : Prop :=
  ∀ s t : State, step s = .next t →
    (∃ rest, s.inputs = .reset :: rest) ∨
    ∃ r rest, s.inputs = .request r :: rest ∧
      (isWrite (decode r) = false → t.block = s.block) ∧
      ∀ d, (∀ k < accessCount (decode r), cellOf d ≠ cellOf (r.addr + BitVec.ofNat 16 k)) →
        byteAt t.block d = byteAt s.block d

/-- A read of a cell returns the last byte write to that cell earlier in the order of requests, or 0x00 if none since
reset: after any stream of requests and reset events, from any state that meets the invariant, every address reads as its
cell's history says, and a byte read answers with it; from a block just constructed the history starts at 0x00
(`20_memory.md` R45). That the stream goes on after a fault is the spec's decision D15 and the model's reading of it (log
1); a reset event in the stream is decision D8 (log 5). -/
def Obligations.ReadsReturnTheLastWriteToTheCell : Prop :=
  ∀ s : State, s.wf = true →
    ∃ t, runSteps s.inputs.length s = .next t ∧
      ∀ (a : Addr) (c : CellRef), cellOf a = some c →
        byteAt t.block a = some (cellHistory c (cellByte s.block c) s.inputs) ∧
        exec (.rb a) t = .next (t.respond (.value ((cellHistory c (cellByte s.block c) s.inputs).setWidth 32))) ∧
        (s.block = Block.new → byteAt t.block a = some (cellHistory c 0x00#8 s.inputs))

/-! ## Faults -/

/-- OutOfBounds names the first unmapped byte in ascending order, and is raised exactly when an accessed byte is unmapped
(`60_exceptions.md` R69, R72, decisions D6 and D3). That a fault is a next state with a response, and not a stop, is the
model's reading (log 1). The response is the model's form of it (log 7). -/
def Obligations.OutOfBoundsNamesTheFirstUnmappedByte : Prop :=
  ∀ (i : Instr) (s : State), ∃ t r, exec i s = .next t ∧ t.responses = s.responses ++ [r] ∧
    ∀ fa, r = .fault .outOfBounds fa ↔
      ∃ m < accessCount i, fa = i.addr + BitVec.ofNat 16 m ∧ isMapped fa = false ∧
        ∀ k < m, isMapped (i.addr + BitVec.ofNat 16 k) = true

/-- A request with a reserved command (`SZ = 0b11`) raises IllegalCommand with the request's address, whatever the address
and data are; the block is unchanged and no address is decoded (`30_encoding.md` R57, `60_exceptions.md` R70, decision
D3). That a fault is a next state with a response, and not a stop, is the model's reading (log 1). That the data of such a
request is ignored is the model's deduction (log 11). -/
def Obligations.ReservedCommandsRaiseIllegalCommand : Prop :=
  (∀ (s : State) (a : Addr),
    exec (.reserved011 a) s = .next (s.respond (.fault .illegalCommand a)) ∧
    exec (.reserved111 a) s = .next (s.respond (.fault .illegalCommand a))) ∧
  ∀ (s : State) (r : Request) (rest : List Input), s.inputs = .request r :: rest → r.cmd.extractLsb' 0 2 = 0b11#2 →
    step s = .next { block := s.block, inputs := rest,
                     responses := s.responses ++ [.fault .illegalCommand r.addr] }

/-- The response of every request, field by field: 0b11 is never a fault code; with no fault `faddr` is 0x0000 and `rdata`
is there, 0 for a write, and for a read the value read: each lane is the byte at its address and no bit above the lanes is
set; with a fault there is no `rdata`; OutOfBounds is reported exactly when some accessed byte is unmapped, with the
address of the first such byte; IllegalCommand reports the request's address and comes from the reserved commands alone
(`30_encoding.md` R52, R54, `60_exceptions.md` R69-R71, decisions D4, D6, D12 and D14; log 7; a fault is a next state, log
1). -/
def Obligations.ResponseFieldsReportTheOutcome : Prop :=
  ∀ (i : Instr) (s t : State), exec i s = .next t →
    ∃ r, t.responses = s.responses ++ [r] ∧ t.inputs = s.inputs ∧
      r.faultField ≠ 0b11#2 ∧
      (r.faultField = 0b00#2 → r.faddrField = 0x0000#16 ∧ ∃ x, r.rdataField = some x ∧
        (isWrite i = true → x = 0x00000000#32) ∧
        (isWrite i = false → x.toNat < 2 ^ (8 * accessCount i) ∧
          ∀ k < accessCount i, byteAt s.block (i.addr + BitVec.ofNat 16 k) = some (x.extractLsb' (8 * k) 8))) ∧
      (r.faultField ≠ 0b00#2 → r.rdataField = none) ∧
      (r.faultField = 0b01#2 ↔ ∃ m < accessCount i, isMapped (i.addr + BitVec.ofNat 16 m) = false) ∧
      (r.faultField = 0b01#2 → ∃ m < accessCount i, r.faddrField = i.addr + BitVec.ofNat 16 m ∧
        isMapped (i.addr + BitVec.ofNat 16 m) = false ∧
        ∀ k < m, isMapped (i.addr + BitVec.ofNat 16 k) = true) ∧
      (r.faultField = 0b10#2 ↔ accessCount i = 0) ∧
      (r.faultField = 0b10#2 → r.faddrField = i.addr)

/-- A fault is precise: the block after any instruction is the block before it with exactly its landed byte writes
applied, in order, whether it completes or faults (`60_exceptions.md` R73, `20_memory.md` R40). That a fault is a next
state with a response, and not a stop, is the model's reading (log 1). -/
def Obligations.FaultsLeaveExactlyTheBytesBeforeThem : Prop :=
  ∀ (i : Instr) (s t : State), exec i s = .next t →
    t.block = (landedWrites i).foldl (fun b w => storeWrite b w.1.store w.1.off w.2) s.block

/-- The block takes every request, after a fault too: with an input waiting there is a next state, which has one input
fewer, whatever the responses so far are (`60_exceptions.md` R75, decision D15; the model's reading, log 1). -/
def Obligations.TheNextRequestIsAlwaysAccepted : Prop :=
  ∀ (s : State) (x : Input) (rest : List Input), s.inputs = x :: rest → ∃ t, step s = .next t ∧ t.inputs = rest

/-- Every stream is performed to its end, one step an input, and gives one response a request, which follow the responses
before (`00_scope.md` R6, `30_encoding.md` R50, decision D1). That the stream goes on after a fault is decision D15
(`60_exceptions.md` R75) and the model's reading of it (log 1); that a reset event has no response is the model's (log 5).
-/
def Obligations.EveryStreamRunsToItsEnd : Prop :=
  ∀ s : State, ∃ t rs, runSteps s.inputs.length s = .next t ∧ t.inputs = [] ∧
    t.responses = s.responses ++ rs ∧ rs.length = requestCount s.inputs

/-- The fault mark is never cleared: a run from a faulted state stays faulted and is never a good final state, and a run
in which some request is answered with a fault is faulted (`60_exceptions.md` R74, decision D7). That a reset event does
not clear it either is the model's reading (log 5). That a fault is a next state with a response, and not a stop, is the
model's reading (log 1). -/
def Obligations.TheFaultMarkIsNeverCleared : Prop :=
  ∀ (n : Nat) (s t : State), runSteps n s = .next t →
    (∃ rs, t.responses = s.responses ++ rs ∧ (t.faulted = true ↔ s.faulted = true ∨ ∃ r ∈ rs, r.isFault = true)) ∧
    (s.faulted = true → t.goodFinal = false)

/-- The block keeps no record of a fault: what a step does to the block, and the response it gives, do not depend on the
responses so far (`10_state.md` R23, decision D15). The list of responses is the model's, outside the block (log 4). -/
def Obligations.PastResponsesDoNotInfluenceAStep : Prop :=
  ∀ s s' t : State, s.block = s'.block → s.inputs = s'.inputs → step s = .next t →
    ∃ t' rs, step s' = .next t' ∧ t'.block = t.block ∧ t'.inputs = t.inputs ∧
      t.responses = s.responses ++ rs ∧ t'.responses = s'.responses ++ rs

/-- Under `OOB_POLICY = halt` the system stops at the first OutOfBounds response and names its address, from then on;
until then it steps as the block does under every policy (`60_exceptions.md` R74, decision D7; the model's system step,
log 12). That a reset event waiting in the stream does not restart the stopped system, and that IllegalCommand does not
stop it, are the model's choices (log 12). -/
def Obligations.HaltPolicyStopsAtTheFirstOutOfBounds : Prop :=
  ∀ s t : State, firstOutOfBounds s.responses = none → step s = .next t →
    (∀ p, systemStep p s = .next t) ∧
    (∀ fa, t.responses = s.responses ++ [.fault .outOfBounds fa] → systemStep .halt t = .fault (.haltedByPolicy fa)) ∧
    ((∀ fa, t.responses ≠ s.responses ++ [.fault .outOfBounds fa]) → ∀ p, systemStep p t = step t)

/-! ## The step -/

/-- A step performs the oldest request of the stream: it is the decoded instruction's meaning on the machine without that
request. With no input there is no step (`00_scope.md` R6, R7; log 2 and 3). -/
def Obligations.StepPerformsTheDecodedRequest : Prop :=
  ∀ s : State,
    (∀ (i : Instr) (r : Request) (rest : List Input), s.inputs = .request r :: rest → decode r = i →
      step s = exec i { s with inputs := rest }) ∧
    (s.inputs = [] → step s = .refused .noRequest)

/-- A request word placed in front of the stream is what the very next step performs (model's choice, log 2). -/
def Obligations.APlacedWordIsPerformedNext : Prop :=
  ∀ (s : State) (nbits w : Nat) (i : Instr), decodeTableWord nbits w = some i →
    step (s.withFetchWord nbits w) = exec i s

/-- The machine after reset meets the invariant: every store is in canonical form and inside its size (`10_state.md` R13;
the form is the model's, log 8). -/
def Obligations.ResetMeetsTheInvariant : Prop := State.reset.wf = true

/-- Every step keeps the invariant, from every state that meets it (`10_state.md` R13; the form is the model's, log 8). -/
def Obligations.EveryStepKeepsTheInvariant : Prop :=
  ∀ s t : State, s.wf = true → step s = .next t → t.wf = true
end

