-- ==== Sys2Proof/Laws/State.lean ====
section
/-! SUPPORT. One lemma per field for every update of the state, true by `rfl`, so that no proof unfolds a record update. -/

namespace Sys2Proof.Machine

variable (s : State) (b : Block) (r : Response) (c : Cause) (fa : Addr) (q : Request) (v : Byte) (off : Off)

@[simp] theorem respond_block : (s.respond r).block = s.block := rfl
@[simp] theorem respond_inputs : (s.respond r).inputs = s.inputs := rfl
@[simp] theorem respond_responses : (s.respond r).responses = s.responses ++ [r] := rfl

@[simp] theorem takeFault_block : (takeFault s b c fa).block = b := rfl
@[simp] theorem takeFault_inputs : (takeFault s b c fa).inputs = s.inputs := rfl
@[simp] theorem takeFault_responses : (takeFault s b c fa).responses = s.responses ++ [.fault c fa] := rfl

@[simp] theorem takeReset_block : (takeReset s).block = Block.new := rfl
@[simp] theorem takeReset_inputs : (takeReset s).inputs = s.inputs := rfl
@[simp] theorem takeReset_responses : (takeReset s).responses = s.responses := rfl

@[simp] theorem placeRequest_block : (placeRequest s q).block = s.block := rfl
@[simp] theorem placeRequest_inputs : (placeRequest s q).inputs = .request q :: s.inputs := rfl
@[simp] theorem placeRequest_responses : (placeRequest s q).responses = s.responses := rfl

@[simp] theorem storeWrite_vram :
    storeWrite b .vram off v = { b with vram := Memory.write b.vram off.toNat v } := rfl
@[simp] theorem storeWrite_eram :
    storeWrite b .eram off v = { b with eram := Memory.write b.eram off.toNat v } := rfl
@[simp] theorem storeWrite_wram :
    storeWrite b .wram off v = { b with wram := Memory.write b.wram off.toNat v } := rfl
@[simp] theorem storeWrite_ie : storeWrite b .ie off v = { b with ie := v } := rfl

@[simp] theorem storeRead_vram : storeRead b .vram off = Memory.read b.vram off.toNat := rfl
@[simp] theorem storeRead_eram : storeRead b .eram off = Memory.read b.eram off.toNat := rfl
@[simp] theorem storeRead_wram : storeRead b .wram off = Memory.read b.wram off.toNat := rfl
@[simp] theorem storeRead_oam : storeRead b .oam off = Memory.read b.oam off.toNat := rfl
@[simp] theorem storeRead_ie : storeRead b .ie off = b.ie := rfl

@[simp] theorem Access.after_ok {α : Type} (x : α) : (Access.ok b x).after = b := rfl
@[simp] theorem Access.after_fault {α : Type} : (Access.fault b c fa : Access α).after = b := rfl

end Sys2Proof.Machine
end

