-- ==== Sys2Proof/Laws/AddressMap.lean ====
section
/-!
SUPPORT. The address decoder in terms of numbers: one inversion lemma that says everything it can answer, and the cell an
address selects.
-/

namespace Sys2Proof.Machine

/-- The number of an offset inside a window. -/
theorem offsetFrom_toNat {base a : Addr} (h : base ≤ a) (h' : a.toNat - base.toNat < 2 ^ 13) :
    (offsetFrom base a).toNat = a.toNat - base.toNat := by
  have := BitVec.toNat_sub_of_le h
  simp only [offsetFrom, BitVec.toNat_setWidth, this]
  exact Nat.mod_eq_of_lt h'

/-- The six windows as number intervals, with the store and the offset each gives, and the unmapped rest. -/
theorem decodeAddr_cases (a : Addr) :
    (∃ win st base size, ∃ off : Off, decodeAddr a = .mapped win st off ∧ off.toNat = a.toNat - base ∧
        base ≤ a.toNat ∧ a.toNat < base + size ∧ size ≤ st.size ∧
        ((win = .vram ∧ st = .vram ∧ base = 0x8000 ∧ size = 0x2000) ∨
         (win = .eram ∧ st = .eram ∧ base = 0xA000 ∧ size = 0x2000) ∨
         (win = .wram ∧ st = .wram ∧ base = 0xC000 ∧ size = 0x2000) ∨
         (win = .echo ∧ st = .wram ∧ base = 0xE000 ∧ size = 0x1E00) ∨
         (win = .oam ∧ st = .oam ∧ base = 0xFE00 ∧ size = 0xA0) ∨
         (win = .ie ∧ st = .ie ∧ base = 0xFFFF ∧ size = 1))) ∨
    (decodeAddr a = .unmapped ∧ (a.toNat < 0x8000 ∨ (0xFEA0 ≤ a.toNat ∧ a.toNat < 0xFFFF))) := by
  have hlt := a.isLt
  unfold decodeAddr
  simp only [BitVec.le_def]
  split
  · rename_i h
    simp only [BitVec.toNat_ofNat] at h
    exact .inl ⟨_, _, 0x8000, 0x2000, _, rfl, offsetFrom_toNat (BitVec.le_def.2 (by simpa using h.1)) (by simp; omega),
      by omega, by omega, by decide, .inl ⟨rfl, rfl, rfl, rfl⟩⟩
  split
  · rename_i h
    simp only [BitVec.toNat_ofNat] at h
    exact .inl ⟨_, _, 0xA000, 0x2000, _, rfl, offsetFrom_toNat (BitVec.le_def.2 (by simpa using h.1)) (by simp; omega),
      by omega, by omega, by decide, .inr (.inl ⟨rfl, rfl, rfl, rfl⟩)⟩
  split
  · rename_i h
    simp only [BitVec.toNat_ofNat] at h
    exact .inl ⟨_, _, 0xC000, 0x2000, _, rfl, offsetFrom_toNat (BitVec.le_def.2 (by simpa using h.1)) (by simp; omega),
      by omega, by omega, by decide, .inr (.inr (.inl ⟨rfl, rfl, rfl, rfl⟩))⟩
  split
  · rename_i h
    simp only [BitVec.toNat_ofNat] at h
    exact .inl ⟨_, _, 0xE000, 0x1E00, _, rfl, offsetFrom_toNat (BitVec.le_def.2 (by simpa using h.1)) (by simp; omega),
      by omega, by omega, by decide, .inr (.inr (.inr (.inl ⟨rfl, rfl, rfl, rfl⟩)))⟩
  split
  · rename_i h
    simp only [BitVec.toNat_ofNat] at h
    exact .inl ⟨_, _, 0xFE00, 0xA0, _, rfl, offsetFrom_toNat (BitVec.le_def.2 (by simpa using h.1)) (by simp; omega),
      by omega, by omega, by decide, .inr (.inr (.inr (.inr (.inl ⟨rfl, rfl, rfl, rfl⟩))))⟩
  split
  · rename_i h
    subst h
    exact .inl ⟨_, _, 0xFFFF, 1, _, rfl, by decide, by decide, by decide, by decide,
      .inr (.inr (.inr (.inr (.inr ⟨rfl, rfl, rfl, rfl⟩))))⟩
  · rename_i h1 h2 h3 h4 h5 h6
    simp only [BitVec.toNat_ofNat] at h1 h2 h3 h4 h5
    have h7 : a.toNat ≠ 0xFFFF := fun h => h6 (BitVec.eq_of_toNat_eq (by simpa using h))
    exact .inr ⟨rfl, by omega⟩

/-- An address selects no cell exactly when it is in an unmapped range. -/
theorem cellOf_eq_none_iff (a : Addr) :
    cellOf a = none ↔ a.toNat < 0x8000 ∨ (0xFEA0 ≤ a.toNat ∧ a.toNat < 0xFFFF) := by
  have hlt := a.isLt
  rcases decodeAddr_cases a with ⟨win, st, base, size, off, hd, ho, hb, hs, -, h⟩ | ⟨hd, h⟩
  · simp only [cellOf, hd, reduceCtorEq, false_iff]
    rcases h with ⟨-, -, rfl, rfl⟩ | ⟨-, -, rfl, rfl⟩ | ⟨-, -, rfl, rfl⟩ | ⟨-, -, rfl, rfl⟩ | ⟨-, -, rfl, rfl⟩ | ⟨-, -, rfl, rfl⟩ <;>
      omega
  · simp [cellOf, hd, h]

/-- The cell an address selects, window by window. -/
theorem cellOf_eq_some {a : Addr} {c : CellRef} (h : cellOf a = some c) :
    (c.store = .vram ∧ 0x8000 ≤ a.toNat ∧ a.toNat < 0xA000 ∧ c.off.toNat = a.toNat - 0x8000) ∨
    (c.store = .eram ∧ 0xA000 ≤ a.toNat ∧ a.toNat < 0xC000 ∧ c.off.toNat = a.toNat - 0xA000) ∨
    (c.store = .wram ∧ 0xC000 ≤ a.toNat ∧ a.toNat < 0xE000 ∧ c.off.toNat = a.toNat - 0xC000) ∨
    (c.store = .wram ∧ 0xE000 ≤ a.toNat ∧ a.toNat < 0xFE00 ∧ c.off.toNat = a.toNat - 0xE000) ∨
    (c.store = .oam ∧ 0xFE00 ≤ a.toNat ∧ a.toNat < 0xFEA0 ∧ c.off.toNat = a.toNat - 0xFE00) ∨
    (c.store = .ie ∧ a.toNat = 0xFFFF ∧ c.off.toNat = 0) := by
  rcases decodeAddr_cases a with ⟨win, st, base, size, off, hd, ho, hb, hs, -, hw⟩ | ⟨hd, -⟩
  · simp only [cellOf, hd, Option.some.injEq] at h
    subst h
    rcases hw with ⟨-, rfl, rfl, rfl⟩ | ⟨-, rfl, rfl, rfl⟩ | ⟨-, rfl, rfl, rfl⟩ | ⟨-, rfl, rfl, rfl⟩ | ⟨-, rfl, rfl, rfl⟩ | ⟨-, rfl, rfl, rfl⟩ <;>
      simp <;> omega
  · simp [cellOf, hd] at h

/-- The cell an address selects is a byte its store has. -/
theorem cellOf_inside {a : Addr} {c : CellRef} (h : cellOf a = some c) : c.off.toNat < c.store.size := by
  rcases cellOf_eq_some h with h | h | h | h | h | h <;> obtain ⟨hs, h⟩ := h <;> rw [hs] <;>
    simp only [Store.size, Config.vramSize, Config.eramSize, Config.wramSize, Config.oamSize] <;> omega

/-- The address of byte i as a number: the sum modulo 2^16 (`00_scope.md` R10). -/
theorem byteAddr_toNat (a : Addr) (i : Nat) : (byteAddr a i).toNat = (a.toNat + i) % 65536 := by
  simp [byteAddr]

@[simp] theorem byteAddr_zero (a : Addr) : byteAddr a 0 = a := by
  apply BitVec.eq_of_toNat_eq
  rw [byteAddr_toNat]
  have := a.isLt
  omega

end Sys2Proof.Machine
end

