-- ==== Sys2Proof/Laws/Memory.lean ====
section
/-!
SUPPORT. One store's memory: what a write does to each read, that a write keeps the canonical form and the store's bounds,
and that writing the byte already there changes nothing.
-/

namespace Sys2Proof.Machine

/-- The canonical form, entry by entry: the rest is canonical, the first offset is below all others, its byte is listed
for a reason. -/
theorem Memory.wf_cons (j : Nat) (w : Byte) (m : Memory) :
    Memory.wf ((j, w) :: m) = true ↔
      Memory.wf m = true ∧ (∀ c ∈ m, j < c.1) ∧ w ≠ Config.resetByte := by
  simp only [Memory.wf, List.pairwise_cons, List.all_cons, Bool.and_eq_true, decide_eq_true_eq, bne_iff_ne, ne_eq]
  tauto

/-- An offset that no entry names holds the reset byte. -/
theorem Memory.read_of_unlisted {m : Memory} {k : Nat} (h : ∀ c ∈ m, c.1 ≠ k) :
    Memory.read m k = Config.resetByte := by
  induction m with
  | nil => rfl
  | cons c m ih =>
    obtain ⟨j, w⟩ := c
    have hj : j ≠ k := h (j, w) (by simp)
    simp only [Memory.read, hj, if_false]
    exact ih fun c hc => h c (by simp [hc])

/-- A write leaves every other offset alone. -/
theorem Memory.read_write_other {m : Memory} {k l : Nat} (v : Byte) (h : l ≠ k) :
    Memory.read (Memory.write m k v) l = Memory.read m l := by
  induction m with
  | nil => by_cases hv : v = Config.resetByte <;> simp [Memory.write, Memory.read, hv, Ne.symm h]
  | cons c m ih =>
    obtain ⟨j, w⟩ := c
    by_cases h1 : k < j
    · by_cases hv : v = Config.resetByte <;> simp [Memory.write, Memory.read, h1, hv, Ne.symm h]
    · by_cases h2 : k = j
      · subst h2
        by_cases hv : v = Config.resetByte <;> simp [Memory.write, Memory.read, hv, Ne.symm h]
      · simp [Memory.write, Memory.read, h1, h2, ih]

/-- A read of the offset written gives the byte written. -/
theorem Memory.read_write_same {m : Memory} (hm : Memory.wf m = true) (k : Nat) (v : Byte) :
    Memory.read (Memory.write m k v) k = v := by
  induction m with
  | nil => by_cases hv : v = Config.resetByte <;> simp [Memory.write, Memory.read, hv]
  | cons c m ih =>
    obtain ⟨j, w⟩ := c
    obtain ⟨hm', hlt, -⟩ := (Memory.wf_cons j w m).1 hm
    by_cases h1 : k < j
    · by_cases hv : v = Config.resetByte
      · have hu : Memory.read m k = Config.resetByte :=
          Memory.read_of_unlisted fun c hc => by have := hlt c hc; omega
        have hjk : j ≠ k := by omega
        simp [Memory.write, Memory.read, h1, hv, hu, hjk]
      · simp [Memory.write, Memory.read, h1, hv]
    · by_cases h2 : k = j
      · subst h2
        by_cases hv : v = Config.resetByte
        · have hu : Memory.read m k = Config.resetByte :=
            Memory.read_of_unlisted fun c hc => by have := hlt c hc; omega
          simp [Memory.write, hv, hu]
        · simp [Memory.write, Memory.read, hv]
      · have hjk : j ≠ k := by omega
        simp [Memory.write, Memory.read, h1, h2, hjk, ih hm']

/-- A write lists no offset but those listed before and its own. -/
theorem Memory.mem_write {m : Memory} {k : Nat} {v : Byte} {c : Host.Cell} (h : c ∈ Memory.write m k v) :
    c ∈ m ∨ c.1 = k := by
  induction m with
  | nil =>
    by_cases hv : v = Config.resetByte
    · simp [Memory.write, hv] at h
    · simp [Memory.write, hv] at h; simp [h]
  | cons d m ih =>
    obtain ⟨j, w⟩ := d
    by_cases h1 : k < j
    · by_cases hv : v = Config.resetByte <;> simp [Memory.write, h1, hv] at h
      · simp [h]
      · rcases h with h | h | h <;> simp [h]
    · by_cases h2 : k = j
      · subst h2
        by_cases hv : v = Config.resetByte <;> simp [Memory.write, hv] at h
        · simp [h]
        · rcases h with h | h <;> simp [h]
      · simp [Memory.write, h1, h2] at h
        rcases h with h | h
        · simp [h]
        · rcases ih h with h | h <;> simp [h]

/-- A write keeps the canonical form. -/
theorem Memory.wf_write {m : Memory} (hm : Memory.wf m = true) (k : Nat) (v : Byte) :
    Memory.wf (Memory.write m k v) = true := by
  induction m with
  | nil =>
    by_cases hv : v = Config.resetByte
    · simp [Memory.write, hv, Memory.wf]
    · simp [Memory.write, hv, Memory.wf]
  | cons c m ih =>
    obtain ⟨j, w⟩ := c
    obtain ⟨hm', hlt, hw⟩ := (Memory.wf_cons j w m).1 hm
    by_cases h1 : k < j
    · by_cases hv : v = Config.resetByte
      · simpa [Memory.write, h1, hv] using hm
      · simp only [Memory.write, h1, hv, if_true, if_false]
        refine (Memory.wf_cons _ _ _).2 ⟨hm, ?_, hv⟩
        rintro c (_ | ⟨_, hc⟩)
        · exact h1
        · exact h1.trans (hlt c hc)
    · by_cases h2 : k = j
      · subst h2
        by_cases hv : v = Config.resetByte
        · simpa [Memory.write, hv] using hm'
        · simpa [Memory.write, hv] using (Memory.wf_cons k v m).2 ⟨hm', hlt, hv⟩
      · simp only [Memory.write, h1, h2, if_false]
        refine (Memory.wf_cons _ _ _).2 ⟨ih hm', fun c hc => ?_, hw⟩
        rcases Memory.mem_write hc with hc | hc
        · exact hlt c hc
        · omega

/-- A write inside a store keeps every listed offset inside it. -/
theorem Memory.inside_write {m : Memory} {size k : Nat} (hm : Memory.inside size m = true) (hk : k < size) (v : Byte) :
    Memory.inside size (Memory.write m k v) = true := by
  simp only [Memory.inside, List.all_eq_true, decide_eq_true_eq] at *
  intro c hc
  rcases Memory.mem_write hc with hc | hc
  · exact hm c hc
  · omega

/-- Writing the byte an offset already holds changes nothing, in canonical form. -/
theorem Memory.write_read_self {m : Memory} (hm : Memory.wf m = true) (k : Nat) :
    Memory.write m k (Memory.read m k) = m := by
  induction m with
  | nil => simp [Memory.write, Memory.read]
  | cons c m ih =>
    obtain ⟨j, w⟩ := c
    obtain ⟨hm', hlt, hw⟩ := (Memory.wf_cons j w m).1 hm
    by_cases h1 : k < j
    · have hu : Memory.read m k = Config.resetByte :=
        Memory.read_of_unlisted fun c hc => by have := hlt c hc; omega
      have hjk : j ≠ k := by omega
      simp [Memory.write, Memory.read, h1, hu, hjk]
    · by_cases h2 : k = j
      · subst h2
        simp [Memory.write, Memory.read, hw]
      · have hjk : j ≠ k := by omega
        simp [Memory.write, Memory.read, h1, h2, hjk, ih hm']

/-- A write inside a store keeps the store well-formed. -/
theorem storeWf_write {m : Memory} {size k : Nat} (hm : storeWf size m = true) (hk : k < size) (v : Byte) :
    storeWf size (Memory.write m k v) = true := by
  simp only [storeWf, Bool.and_eq_true] at *
  exact ⟨Memory.wf_write hm.1 k v, Memory.inside_write hm.2 hk v⟩

end Sys2Proof.Machine
end

