-- ==== Sys2Proof/Laws/Ops.lean ====
section
/-!
SUPPORT. The store access primitives and the accesses in terms of cells: what each answers, what it changes and that it
keeps the invariant.
-/

namespace Sys2Proof.Machine

/-- The invariant of the block, store by store. -/
theorem Block.wf_iff (b : Block) :
    b.wf = true ↔ storeWf Config.vramSize b.vram = true ∧ storeWf Config.eramSize b.eram = true ∧
      storeWf Config.wramSize b.wram = true ∧ storeWf Config.oamSize b.oam = true := by
  simp [Block.wf, and_assoc]

/-- A store write keeps the invariant. -/
theorem storeWrite_wf {b : Block} (hb : b.wf = true) (st : Store) (off : Off) (v : Byte) :
    (storeWrite b st off v).wf = true := by
  have hoff : off.toNat < 8192 := off.isLt
  rw [Block.wf_iff] at *
  obtain ⟨h1, h2, h3, h4⟩ := hb
  cases st with
  | vram => exact ⟨storeWf_write h1 hoff v, h2, h3, h4⟩
  | eram => exact ⟨h1, storeWf_write h2 hoff v, h3, h4⟩
  | wram => exact ⟨h1, h2, storeWf_write h3 hoff v, h4⟩
  | oam =>
    simp only [storeWrite]
    split
    · rename_i h; exact ⟨h1, h2, h3, storeWf_write h4 h v⟩
    · exact ⟨h1, h2, h3, h4⟩
  | ie => exact ⟨h1, h2, h3, h4⟩

/-- The cell written holds the byte written. -/
theorem cellByte_storeWrite_same {b : Block} (hb : b.wf = true) {c : CellRef} (hc : c.off.toNat < c.store.size)
    (v : Byte) : cellByte (storeWrite b c.store c.off v) c = v := by
  obtain ⟨st, off⟩ := c
  simp only [Block.wf_iff, storeWf, Bool.and_eq_true] at hb
  obtain ⟨⟨h1, -⟩, ⟨h2, -⟩, ⟨h3, -⟩, ⟨h4, -⟩⟩ := hb
  cases st with
  | vram => exact Memory.read_write_same h1 _ v
  | eram => exact Memory.read_write_same h2 _ v
  | wram => exact Memory.read_write_same h3 _ v
  | oam =>
    have hc' : off.toNat < Config.oamSize := hc
    simp only [cellByte, storeWrite, hc', if_true]
    exact Memory.read_write_same h4 _ v
  | ie => rfl

/-- Every other cell a store has keeps its byte. -/
theorem cellByte_storeWrite_other {b : Block} {c d : CellRef} (hc : c.off.toNat < c.store.size)
    (hd : d.off.toNat < d.store.size) (h : d ≠ c) (v : Byte) :
    cellByte (storeWrite b c.store c.off v) d = cellByte b d := by
  obtain ⟨st, off⟩ := c
  obtain ⟨st', off'⟩ := d
  by_cases hst : st' = st
  · subst hst
    have hoff : off'.toNat ≠ off.toNat := fun e => h (by rw [BitVec.eq_of_toNat_eq e])
    cases st' with
    | vram => exact Memory.read_write_other v hoff
    | eram => exact Memory.read_write_other v hoff
    | wram => exact Memory.read_write_other v hoff
    | oam =>
      have hc' : off.toNat < Config.oamSize := hc
      simp only [cellByte, storeWrite, hc', if_true]
      exact Memory.read_write_other v hoff
    | ie =>
      simp only [Store.size] at hc hd
      omega
  · cases st <;> cases st' <;> first
      | exact absurd rfl hst
      | rfl
      | (simp only [cellByte, storeWrite]; split <;> rfl)

/-- Writing the byte a cell already holds changes nothing. -/
theorem storeWrite_same_byte {b : Block} (hb : b.wf = true) (st : Store) (off : Off) :
    storeWrite b st off (storeRead b st off) = b := by
  simp only [Block.wf_iff, storeWf, Bool.and_eq_true] at hb
  obtain ⟨⟨h1, -⟩, ⟨h2, -⟩, ⟨h3, -⟩, ⟨h4, -⟩⟩ := hb
  cases st with
  | vram => simp [Memory.write_read_self h1]
  | eram => simp [Memory.write_read_self h2]
  | wram => simp [Memory.write_read_self h3]
  | oam => simp only [storeWrite]; split <;> simp [Memory.write_read_self h4]
  | ie => rfl

/-- Reading a byte, in terms of cells. -/
theorem byteAt_eq (b : Block) (a : Addr) : byteAt b a = (cellOf a).map (cellByte b) := by
  simp only [byteAt, cellOf]
  cases decodeAddr a <;> rfl

theorem byteRead_of_unmapped {a : Addr} (b : Block) (h : cellOf a = none) : byteRead b a = .fault b .outOfBounds a := by
  simp only [cellOf, byteRead] at *
  cases hd : decodeAddr a <;> simp_all

theorem byteRead_of_cell {a : Addr} {c : CellRef} (b : Block) (h : cellOf a = some c) :
    byteRead b a = .ok b (cellByte b c) := by
  simp only [cellOf, byteRead] at *
  cases hd : decodeAddr a with
  | unmapped => simp [hd] at h
  | mapped w st off => simp only [hd, Option.some.injEq] at h; subst h; rfl

theorem byteWrite_of_unmapped {a : Addr} (b : Block) (v : Byte) (h : cellOf a = none) :
    byteWrite b a v = .fault b .outOfBounds a := by
  simp only [cellOf, byteWrite] at *
  cases hd : decodeAddr a <;> simp_all

theorem byteWrite_of_cell {a : Addr} {c : CellRef} (b : Block) (v : Byte) (h : cellOf a = some c) :
    byteWrite b a v = .ok (storeWrite b c.store c.off v) () := by
  simp only [cellOf, byteWrite] at *
  cases hd : decodeAddr a with
  | unmapped => simp [hd] at h
  | mapped w st off => simp only [hd, Option.some.injEq] at h; subst h; rfl

/-- A byte write changes at most one cell, and only the one the address selects. -/
theorem byteAt_storeWrite_other {a d : Addr} {c : CellRef} (b : Block) (v : Byte) (h : cellOf a = some c)
    (hd : cellOf d ≠ cellOf a) : byteAt (storeWrite b c.store c.off v) d = byteAt b d := by
  rw [byteAt_eq, byteAt_eq]
  cases hcd : cellOf d with
  | none => rfl
  | some e =>
    have hne : e ≠ c := by rintro rfl; exact hd (hcd.trans h.symm)
    simp [cellByte_storeWrite_other (cellOf_inside h) (cellOf_inside hcd) hne v]

/-- The byte at the address written is the byte written. -/
theorem byteAt_storeWrite_same {a : Addr} {c : CellRef} {b : Block} (hb : b.wf = true) (v : Byte)
    (h : cellOf a = some c) : byteAt (storeWrite b c.store c.off v) a = some v := by
  rw [byteAt_eq, h]
  simp [cellByte_storeWrite_same hb (cellOf_inside h) v]

/-- A read sequence never changes the block, on any path. -/
theorem memReadFrom_after (b : Block) (a : Addr) (k i : Nat) (r : Word) : (memReadFrom b a k i r).after = b := by
  induction k generalizing i r with
  | zero => rfl
  | succ k ih =>
    simp only [memReadFrom]
    cases h : cellOf (byteAddr a i) with
    | none => simp [byteRead_of_unmapped b h]
    | some c => simp [byteRead_of_cell b h, ih]

/-- A write sequence keeps the invariant, on every path. -/
theorem memWriteFrom_wf {b : Block} (hb : b.wf = true) (a : Addr) (v : Word) (k i : Nat) :
    (memWriteFrom b a v k i).after.wf = true := by
  induction k generalizing b i with
  | zero => exact hb
  | succ k ih =>
    simp only [memWriteFrom]
    cases h : cellOf (byteAddr a i) with
    | none => simpa [byteWrite_of_unmapped b _ h] using hb
    | some c => simpa [byteWrite_of_cell b _ h] using ih (storeWrite_wf hb c.store c.off _) (i + 1)

/-- The response to a read is one more response; the block is the access's. -/
theorem answerRead_next (s : State) (n : Nat) (o : Access Word) :
    ∃ r, answerRead s n o = .next ({ s with block := o.after }.respond r) := by
  cases o with
  | ok b x => exact ⟨_, rfl⟩
  | fault b c fa => exact ⟨_, rfl⟩

/-- The response to a write is one more response; the block is the access's. -/
theorem answerWrite_next (s : State) (o : Access Unit) :
    ∃ r, answerWrite s o = .next ({ s with block := o.after }.respond r) := by
  cases o with
  | ok b x => exact ⟨_, rfl⟩
  | fault b c fa => exact ⟨_, rfl⟩

end Sys2Proof.Machine
end

