-- ==== Sys2Proof/Laws/Step.lean ====
section
/-! SUPPORT. The step, input by input, and the inversion lemma of a step that answers a next state. -/

namespace Sys2Proof.Machine

theorem step_of_no_input {s : State} (h : s.inputs = []) : step s = .refused .noRequest := by
  simp [step, takeInput, h]

theorem step_of_reset {s : State} {rest : List Input} (h : s.inputs = .reset :: rest) :
    step s = .next (takeReset { s with inputs := rest }) := by
  simp [step, takeInput, h]

theorem step_of_request {s : State} {r : Request} {rest : List Input} (h : s.inputs = .request r :: rest) :
    step s = exec (decode r) { s with inputs := rest } := by
  simp [step, takeInput, h]

/-- What a step that answers a next state did: it took a reset event, or it ran the oldest request. -/
theorem step_cases {s t : State} (h : step s = .next t) :
    (∃ rest, s.inputs = .reset :: rest ∧ t = takeReset { s with inputs := rest }) ∨
    (∃ r rest, s.inputs = .request r :: rest ∧ exec (decode r) { s with inputs := rest } = .next t) := by
  cases hi : s.inputs with
  | nil => simp [step_of_no_input hi] at h
  | cons x rest =>
    cases x with
    | reset =>
      rw [step_of_reset hi] at h
      exact .inl ⟨rest, rfl, (Host.Outcome.next.inj h).symm⟩
    | request r => exact .inr ⟨r, rest, rfl, step_of_request hi ▸ h⟩

/-- The block an instruction leaves, on every path. -/
def blockAfter : Instr → Block → Block
  | .rb _, b          => b
  | .rw _, b          => b
  | .rd _, b          => b
  | .wb a v, b        => (memWrite b a 1 (v.setWidth 32)).after
  | .ww a v, b        => (memWrite b a 2 (v.setWidth 32)).after
  | .wd a v, b        => (memWrite b a 4 v).after
  | .reserved011 _, b => b
  | .reserved111 _, b => b

/-- What a meaning that answers a next state did: it left `blockAfter`, took nothing from the stream and gave one
response. -/
theorem exec_cases {i : Instr} {s t : State} (h : exec i s = .next t) :
    ∃ r, t = { s with block := blockAfter i s.block }.respond r := by
  have key : ∀ (o : Host.Outcome State Fault Refusal) (b : Block),
      (∃ r, o = .next ({ s with block := b }.respond r)) → o = .next t → ∃ r, t = { s with block := b }.respond r := by
    rintro o b ⟨r, rfl⟩ ht
    exact ⟨r, (Host.Outcome.next.inj ht).symm⟩
  cases i with
  | rb a => simpa only [memRead, memReadFrom_after, blockAfter] using key _ _ (answerRead_next s 1 (memRead s.block a 1)) h
  | rw a => simpa only [memRead, memReadFrom_after, blockAfter] using key _ _ (answerRead_next s 2 (memRead s.block a 2)) h
  | rd a => simpa only [memRead, memReadFrom_after, blockAfter] using key _ _ (answerRead_next s 4 (memRead s.block a 4)) h
  | wb a v => exact key _ _ (answerWrite_next s _) h
  | ww a v => exact key _ _ (answerWrite_next s _) h
  | wd a v => exact key _ _ (answerWrite_next s _) h
  | reserved011 a => exact key _ _ ⟨_, rfl⟩ h
  | reserved111 a => exact key _ _ ⟨_, rfl⟩ h

/-- An instruction keeps the invariant of the block. -/
theorem blockAfter_wf {b : Block} (hb : b.wf = true) (i : Instr) : (blockAfter i b).wf = true := by
  cases i with
  | wb a v => exact memWriteFrom_wf hb a _ _ _
  | ww a v => exact memWriteFrom_wf hb a _ _ _
  | wd a v => exact memWriteFrom_wf hb a _ _ _
  | rb a => exact hb
  | rw a => exact hb
  | rd a => exact hb
  | reserved011 a => exact hb
  | reserved111 a => exact hb

end Sys2Proof.Machine
end

