-- ==== Sys2Proof/Laws/PerInstr.lean ====
section
/-!
SUPPORT. Statements for all instructions, one lemma a constructor. The family `EncodesItsRow`: the request word of an
instruction matches its row of `spec/opcode_table.json` (mask 0x7000000000000) and carries its address in bits 47:32.
-/

namespace Sys2Proof

/-- The number of a request word, field by field (`30_encoding.md` R51). -/
theorem request_word_toNat (r : Request) :
    r.word.toNat = r.cmd.toNat * 2 ^ 48 + r.addr.toNat * 2 ^ 32 + r.wdata.toNat := by
  obtain ⟨c, a, w⟩ := r
  have ha := a.isLt
  have hw := w.isLt
  simp only [Request.word, BitVec.toNat_append]
  rw [← Nat.shiftLeft_add_eq_or_of_lt ha, ← Nat.shiftLeft_add_eq_or_of_lt hw]
  simp only [Nat.shiftLeft_eq]
  omega

/-- The command of an instruction's row as a number: the row's `match` over 2^48 (`spec/opcode_table.json`). -/
def rowMatch : Instr → Nat
  | .rb _          => 0x0000000000000
  | .rw _          => 0x1000000000000
  | .rd _          => 0x2000000000000
  | .reserved011 _ => 0x3000000000000
  | .wb _ _        => 0x4000000000000
  | .ww _ _        => 0x5000000000000
  | .wd _ _        => 0x6000000000000
  | .reserved111 _ => 0x7000000000000

namespace Laws.EncodesItsRow

/-- The word's bits under the row's mask are the row's match, and its address field is the instruction's address. -/
def Statement (i : Instr) : Prop :=
  (encode i).word.toNat / 2 ^ 48 * 2 ^ 48 = rowMatch i ∧ (encode i).word.toNat / 2 ^ 32 % 2 ^ 16 = i.addr.toNat

/-- An instruction whose command is its row's is encoded in its row. -/
theorem statement_of_cmd {i : Instr} (h : i.cmd.toNat * 2 ^ 48 = rowMatch i) : Statement i := by
  have ha := i.addr.isLt
  have hw := i.wdata.isLt
  unfold Statement
  rw [request_word_toNat]
  simp only [encode]
  omega

theorem rb (addr : Addr) : Statement (.rb addr) := statement_of_cmd (by simp [Instr.cmd, rowMatch])
theorem rw (addr : Addr) : Statement (.rw addr) := statement_of_cmd (by simp [Instr.cmd, rowMatch])
theorem rd (addr : Addr) : Statement (.rd addr) := statement_of_cmd (by simp [Instr.cmd, rowMatch])
theorem wb (addr : Addr) (value : Byte) : Statement (.wb addr value) := statement_of_cmd (by simp [Instr.cmd, rowMatch])
theorem ww (addr : Addr) (value : Half) : Statement (.ww addr value) := statement_of_cmd (by simp [Instr.cmd, rowMatch])
theorem wd (addr : Addr) (value : Word) : Statement (.wd addr value) := statement_of_cmd (by simp [Instr.cmd, rowMatch])
theorem reserved011 (addr : Addr) : Statement (.reserved011 addr) := statement_of_cmd (by simp [Instr.cmd, rowMatch])
theorem reserved111 (addr : Addr) : Statement (.reserved111 addr) := statement_of_cmd (by simp [Instr.cmd, rowMatch])

end Laws.EncodesItsRow

end Sys2Proof
end

