-- ==== Sys2Proof/Tests/Slice0.lean ====
section
/-!
SUPPORT. The model's own tests. Expected values come from the spec: its encodings (`30_encoding.md`), its vectors
(`95_test_vectors.md`) and the corner cases of its rules, named at each test. The witnesses at the end show, for every
statement with hypotheses, states and operands that meet them, each clause at the ends of its range.
-/

namespace Sys2Proof.Tests

open Sys2Proof.Machine

/-! ## Helpers -/

/-- The next state of an outcome, where it is one. -/
def nextOf (o : Host.Outcome State Fault Refusal) : Option State :=
  match o with
  | .next s    => some s
  | .fault _   => none
  | .refused _ => none

/-- The block and the last response after an instruction from a block. -/
def after (i : Instr) (b : Block) : Option (Block × Option Response) :=
  (nextOf (exec i { block := b, inputs := [], responses := [] })).map (fun t => (t.block, t.responses.getLast?))

/-- A fresh block with one `vram` byte, one `oam` byte and `ie`. -/
def small : Block := { Block.new with vram := [(0x1FFF, 0x33#8)], oam := [(0x9F, 0x5A#8)], ie := 0x0F#8 }

/-- A machine on the small block with one input waiting. -/
def waiting (x : Input) : State := { block := small, inputs := [x], responses := [] }

/-! ## Ill-formed listing requests are refused (`30_encoding.md` R59), one for each check -/

theorem test_wellFormed_refuses_wide_addr : ListingRequest.wellFormed (.rb 0x10000) = false := by decide
theorem test_wellFormed_refuses_wide_byte : ListingRequest.wellFormed (.wb 0x8000 0x1FF) = false := by decide
theorem test_wellFormed_refuses_wide_word : ListingRequest.wellFormed (.ww 0x8000 0x10000) = false := by decide
theorem test_wellFormed_refuses_wide_dword : ListingRequest.wellFormed (.wd 0x8000 0x100000000) = false := by decide
theorem test_wellFormed_refuses_wide_cmd : ListingRequest.wellFormed (.req 8 0x8000 0) = false := by decide
theorem test_wellFormed_accepts_fitting : ListingRequest.wellFormed (.req 7 0xFFFF 0xFFFFFFFF) = true := by decide

/-! ## Request words written out from the spec's encoding: cmd, addr, wdata (`30_encoding.md` R51, R61) -/

theorem test_decode_rb :
    decode (requestOfWord (0b000#3 ++ 0b1110000000010000#16 ++ 0#32)) = .rb 0xE010#16 := by decide
theorem test_decode_rw :
    decode (requestOfWord (0b001#3 ++ 0b1001111111111111#16 ++ 0#32)) = .rw 0x9FFF#16 := by decide
theorem test_decode_rd :
    decode (requestOfWord (0b010#3 ++ 0b1000000000000000#16 ++ 0xFFFFFFFF#32)) = .rd 0x8000#16 := by decide
theorem test_decode_wb :
    decode (requestOfWord (0b100#3 ++ 0b1100000000010000#16 ++ 0b00000000000000000000000101000010#32))
      = .wb 0xC010#16 0x42#8 := by decide
theorem test_decode_ww :
    decode (requestOfWord (0b101#3 ++ 0b1111111010011111#16 ++ 0b11111111111111111010010101011010#32))
      = .ww 0xFE9F#16 0xA55A#16 := by decide
theorem test_decode_wd :
    decode (requestOfWord (0b110#3 ++ 0b1001111111111110#16 ++ 0b00010001001000100011001101000100#32))
      = .wd 0x9FFE#16 0x11223344#32 := by decide
theorem test_decode_reserved011 :
    decode (requestOfWord (0b011#3 ++ 0b1000000000000000#16 ++ 0xFF#32)) = .reserved011 0x8000#16 := by decide
theorem test_decode_reserved111 :
    decode (requestOfWord (0b111#3 ++ 0b1000000000000000#16 ++ 0xFF#32)) = .reserved111 0x8000#16 := by decide
theorem test_decodeTableWord_refuses_bit_51 : decodeTableWord 56 (2 ^ 51) = none := by decide
theorem test_encode_word : (encode (.ww 0xFE9F#16 0xA55A#16)).word = 0x5FE9F0000A55A#51 := by decide

/-! ## The operations, at most two tests each (`95_test_vectors.md` part 2) -/

/-- B10: an unmapped read faults with its address. -/
theorem test_rb_unmapped : after (.rb 0xFF80#16) small = some (small, some (.fault .outOfBounds 0xFF80#16)) := by decide
/-- R62: a read at the last OAM byte. -/
theorem test_rb_last_oam : after (.rb 0xFE9F#16) small = some (small, some (.value 0x5A#32)) := by decide
/-- B3: a write through the echo window changes `wram[5]`. -/
theorem test_wb_echo :
    after (.wb 0xE005#16 0x7E#8) Block.new = some ({ Block.new with wram := [(5, 0x7E#8)] }, some .done) := by decide
/-- B8: a write just below VRAM does not reach it. -/
theorem test_wb_below_vram :
    after (.wb 0x7FFF#16 0x99#8) small = some (small, some (.fault .outOfBounds 0x7FFF#16)) := by decide
/-- R65: the low byte is at the lower address, across VRAM and ERAM. -/
theorem test_rw_low_byte_first :
    after (.rw 0x9FFF#16) { small with eram := [(0, 0x22#8)] }
      = some ({ small with eram := [(0, 0x22#8)] }, some (.value 0x2233#32)) := by decide
/-- R65: at 0xFFFF the second byte is 0x0000, which faults; no value. -/
theorem test_rw_wraps : after (.rw 0xFFFF#16) small = some (small, some (.fault .outOfBounds 0x0000#16)) := by decide
/-- 2.3, 0xDFFF: the second byte goes through the echo window. -/
theorem test_ww_through_echo :
    after (.ww 0xDFFF#16 0xA1B2#16) Block.new
      = some ({ Block.new with wram := [(0, 0xA1#8), (0x1FFF, 0xB2#8)] }, some .done) := by decide
/-- 2.3, 0xFFFF: `ie` stays written. -/
theorem test_ww_partial :
    after (.ww 0xFFFF#16 0xA1B2#16) Block.new
      = some ({ Block.new with ie := 0xB2#8 }, some (.fault .outOfBounds 0x0000#16)) := by decide
/-- P3, request 12: the four bytes up to the end of OAM. -/
theorem test_rd_last_oam :
    after (.rd 0xFE9C#16) { Block.new with oam := [(0x9D, 0x44#8), (0x9E, 0x33#8), (0x9F, 0x22#8)] }
      = some ({ Block.new with oam := [(0x9D, 0x44#8), (0x9E, 0x33#8), (0x9F, 0x22#8)] },
              some (.value 0x22334400#32)) := by decide
/-- R67: 0xFFFC faults at once. -/
theorem test_rd_below_ie : after (.rd 0xFFFC#16) small = some (small, some (.fault .outOfBounds 0xFFFC#16)) := by decide
/-- 2.4, 0xFDFF: across WRAM's echo and OAM. -/
theorem test_wd_across_oam :
    after (.wd 0xFDFF#16 0x11223344#32) Block.new
      = some ({ Block.new with wram := [(0x1DFF, 0x44#8)], oam := [(0, 0x33#8), (1, 0x22#8), (2, 0x11#8)] },
              some .done) := by decide
/-- 2.4, 0xFE9D: three bytes stay written. -/
theorem test_wd_partial :
    after (.wd 0xFE9D#16 0x11223344#32) Block.new
      = some ({ Block.new with oam := [(0x9D, 0x44#8), (0x9E, 0x33#8), (0x9F, 0x22#8)] },
              some (.fault .outOfBounds 0xFEA0#16)) := by decide
/-- F3: the command is checked before the address. -/
theorem test_reserved011 :
    after (.reserved011 0x0000#16) small = some (small, some (.fault .illegalCommand 0x0000#16)) := by decide
/-- F2. -/
theorem test_reserved111 :
    after (.reserved111 0x8000#16) Block.new = some (Block.new, some (.fault .illegalCommand 0x8000#16)) := by decide

/-! ## Stores, response fields, reset, step -/

/-- Writing the reset byte removes the entry (log 8). -/
theorem test_write_reset_byte : Memory.write [(1, 0x11#8), (3, 0x33#8)] 3 0x00#8 = [(1, 0x11#8)] := by decide
theorem test_write_keeps_order :
    Memory.write [(1, 0x11#8), (3, 0x33#8)] 2 0x22#8 = [(1, 0x11#8), (2, 0x22#8), (3, 0x33#8)] := by decide
theorem test_wf_refuses_unsorted : Memory.wf [(3, 0x33#8), (1, 0x11#8)] = false := by decide
theorem test_wf_refuses_reset_byte : Memory.wf [(1, 0x00#8)] = false := by decide
theorem test_inside_refuses_oam_160 : Memory.inside Config.oamSize [(160, 0x11#8)] = false := by decide
/-- `30_encoding.md` R52: the fields of a fault; no `rdata`. -/
theorem test_response_fields :
    (Response.fault .illegalCommand 0x8000#16).faultField = 0b10#2 ∧
    (Response.fault .outOfBounds 0xFEA0#16).faultField = 0b01#2 ∧
    (Response.fault .outOfBounds 0xFEA0#16).faddrField = 0xFEA0#16 ∧
    (Response.fault .outOfBounds 0xFEA0#16).rdataField = none ∧ Response.done.rdataField = some 0#32 := by decide
/-- Z4: the reset input zeroes `ie`. -/
theorem test_step_reset : (nextOf (step (waiting .reset))).map (fun t => t.block) = some Block.new := by decide
theorem test_step_request :
    (nextOf (step (waiting (.request (encode (.rb 0xFFFF#16)))))).map (fun t => t.responses)
      = some [.value 0x0F#32] := by decide
/-- A word placed on the machine after reset is performed by its next step (P4, request 2). -/
theorem test_withFetchWord :
    (nextOf (step (State.reset.withFetchWord 56 0x6800000000020))).map (fun t => (t.block.vram, t.responses, t.inputs))
      = some ([(0, 0x20#8)], [.done], []) := by decide

/-! ## Listings (`30_encoding.md` R59) -/

theorem test_parse_wb :
    parseLine [' ', 'W', 'B', ' ', '0', 'x', 'C', '0', '1', '0', ',', ' ', '6', '6', ' ', '-', '>', ' ', 'o', 'k', ' ', ';', 'x']
      = .entry ⟨.wb 0xC010 66, some .ok⟩ := by decide
theorem test_parse_refuses_wide_value :
    parseLine ['W', 'B', ' ', '0', 'x', '8', '0', '0', '0', ',', '0', 'x', '1', 'F', 'F'] = .refused := by decide
theorem test_parse_expected_fault :
    parseExpected (outOfBoundsName ++ [' ', '@', '0', 'x', 'F', 'E', 'A', '0']) = some (.outOfBounds 0xFEA0) := by decide
theorem test_listing_agrees :
    listingInputs [⟨.rb 0xFFFF, some (.value 0x0F)⟩] = some [.request (encode (.rb 0xFFFF#16))] ∧
    listingAgrees [⟨.rb 0xFFFF, some (.value 0x0F)⟩] [.value 0x0F#32] = true ∧
    listingAgrees [⟨.rb 0xFFFF, some .ok⟩] [.value 0x0F#32] = false := by decide
theorem test_parse_comment_line : parseLine [' ', ';', 'R', 'B'] = .blank := by decide

/-! ## Witnesses: the hypotheses of each statement can be met, each clause at the ends of its range -/

/-- For each command, two requests that meet the right side of `OnlyUsedBitsOfARequestMatter` and differ where they may
(a double-word write uses all of `wdata`); for each write, two that differ in its highest used bit only. -/
theorem witness_OnlyUsedBitsOfARequestMatter :
    (∀ cmd ∈ [0b000#3, 0b001#3, 0b010#3, 0b011#3, 0b111#3],
      decode ⟨cmd, 0x8000#16, 0#32⟩ = decode ⟨cmd, 0x8000#16, 0xFFFFFFFF#32⟩) ∧
    ((∀ j < 8, (0x42#32).getLsbD j = (0xFFFFFF42#32).getLsbD j) ∧
      decode ⟨0b100#3, 0x8000#16, 0x42#32⟩ = decode ⟨0b100#3, 0x8000#16, 0xFFFFFF42#32⟩) ∧
    ((∀ j < 16, (0xA55A#32).getLsbD j = (0xFFFFA55A#32).getLsbD j) ∧
      decode ⟨0b101#3, 0x8000#16, 0xA55A#32⟩ = decode ⟨0b101#3, 0x8000#16, 0xFFFFA55A#32⟩) ∧
    decode ⟨0b100#3, 0x8000#16, 0#32⟩ ≠ decode ⟨0b100#3, 0x8000#16, 0x80#32⟩ ∧
    decode ⟨0b101#3, 0x8000#16, 0#32⟩ ≠ decode ⟨0b101#3, 0x8000#16, 0x8000#32⟩ ∧
    decode ⟨0b110#3, 0x8000#16, 0#32⟩ ≠ decode ⟨0b110#3, 0x8000#16, 0x80000000#32⟩ := by decide

theorem witness_ListingNumbersThatDoNotFitAreRefused :
    (2 ^ 16 ≤ 0x10000 ∧ 2 ^ 8 ≤ 0x100 ∧ 2 ^ 16 ≤ 0x10000 ∧ 2 ^ 32 ≤ 0x100000000 ∧ 2 ^ 3 ≤ 8) ∧
    (0xFFFF < 2 ^ 16 ∧ 0xFF < 2 ^ 8 ∧ 0xFFFF < 2 ^ 16 ∧ 0xFFFFFFFF < 2 ^ 32 ∧ 7 < 2 ^ 3) := by decide

theorem witness_OnlyRequestBytesDecode :
    (List.replicate 6 0x00#8).length ≠ 7 ∧
    ((List.replicate 6 0x00#8 ++ [0x08#8]).length = 7 ∧ 2 ^ 51 ≤ natOfBytes (List.replicate 6 0x00#8 ++ [0x08#8])) ∧
    ((List.replicate 6 0xFF#8 ++ [0x07#8]).length = 7 ∧ natOfBytes (List.replicate 6 0xFF#8 ++ [0x07#8]) < 2 ^ 51) := by
  decide

/-- The ends of every range the address clauses name, and what the decoder answers there (`95_test_vectors.md` 2.1); the
ranges of `AddressDecoderFollowsTheMap`, `PrimaryWindowOffset`, `RegionSelectOutputs` and
`ReadByteReturnsTheSelectedByte`. -/
theorem witness_address_ranges :
    [0x0000#16, 0x7FFF#16, 0x8000#16, 0x9FFF#16, 0xA000#16, 0xBFFF#16, 0xC000#16, 0xDFFF#16, 0xE000#16, 0xFDFF#16,
      0xFE00#16, 0xFE9F#16, 0xFEA0#16, 0xFEFF#16, 0xFF00#16, 0xFF7F#16, 0xFF80#16, 0xFFFE#16, 0xFFFF#16].map
      (fun a => (regionSel a, regionOff a)) =
    [(0#3, 0#13), (0#3, 0#13), (1#3, 0#13), (1#3, 0x1FFF#13), (2#3, 0#13), (2#3, 0x1FFF#13), (3#3, 0#13), (3#3, 0x1FFF#13),
      (4#3, 0#13), (4#3, 0x1DFF#13), (5#3, 0#13), (5#3, 0x9F#13), (0#3, 0#13), (0#3, 0#13), (0#3, 0#13), (0#3, 0#13),
      (0#3, 0#13), (0#3, 0#13), (6#3, 0#13)] := by decide

theorem witness_TheWindowTableIsWhatTheDecoderDecides :
    decodeAddr 0xFDFF#16 = .mapped .echo .wram 0x1DFF#13 ∧ decodeAddr 0xFE00#16 = .mapped .oam .oam 0#13 ∧
    Window.oam ≠ Window.echo ∧ Window.echo.first ≤ 0xFDFF#16 ∧ 0xFDFF#16 ≤ Window.echo.last := by decide

theorem witness_MappedAddressesAreCounted : 65536 ≤ 65536 ∧ 0 ≤ 65536 := by decide

theorem witness_OnlyTheEchoReachesACellTwice :
    (cellOf 0xC000#16 = some ⟨.wram, 0#13⟩ ∧ cellOf 0xE000#16 = some ⟨.wram, 0#13⟩ ∧ 0xC000#16 ≠ 0xE000#16) ∧
    (cellOf 0xDDFF#16 = some ⟨.wram, 0x1DFF#13⟩ ∧ cellOf 0xFDFF#16 = some ⟨.wram, 0x1DFF#13⟩ ∧ 0xFDFF#16 ≠ 0xDDFF#16) ∧
    (0x9F#13).toNat < Store.oam.size ∧ (0#13).toNat < Store.ie.size := by decide

theorem witness_StoreWriteChangesExactlyItsCell :
    small.wf = true ∧ (0x9F#13).toNat < Store.oam.size ∧ (0#13).toNat < Store.ie.size ∧
    Store.ie ≠ Store.oam ∧ (0x1FFF#13).toNat < Store.wram.size := by decide

theorem witness_BlocksThatReadAlikeAreEqual :
    ∃ b b' : Block, b.wf = true ∧ b'.wf = true ∧ ∀ a, byteAt b a = byteAt b' a :=
  ⟨small, small, by decide, by decide, fun _ => rfl⟩

theorem witness_AfterConstructionEverythingReadsZero :
    State.reset.block = Block.new ∧ isMapped 0xFFFF#16 = true ∧
    (0x8000 ≤ (0x8000#16).toNat ∧ (0xFE9E#16).toNat ≤ 0xFE9E ∧ (0xFE9C#16).toNat ≤ 0xFE9C) := by decide

theorem witness_ResetInputIsConstruction : (waiting .reset).inputs = .reset :: [] := by decide

/-- The state and the ends of the address ranges of the byte, word and double-word statements, of
`MixedWidthAccessesSeeTheSameBytes` and of `ReadAfterWriteReturnsTheValue`. -/
theorem witness_operation_ranges :
    (waiting .reset).wf = true ∧ isMapped 0x8000#16 = true ∧ isMapped 0xFFFF#16 = true ∧
    (0x8000 ≤ (0x8000#16).toNat ∧ (0xFE9F#16).toNat ≤ 0xFE9F) ∧
    (0x8000 ≤ (0xFE9E#16).toNat ∧ (0xFE9E#16).toNat ≤ 0xFE9E) ∧
    (0x8000 ≤ (0xFE9C#16).toNat ∧ (0xFE9C#16).toNat ≤ 0xFE9C) ∧
    (0xFE9D ≤ (0xFE9D#16).toNat ∧ (0xFE9F#16).toNat ≤ 0xFE9F) ∧
    (0xFFFF#16).toNat = 0xFFFF ∧ (0x7FFF#16).toNat ≤ 0x7FFF ∧
    (0xFEA0 ≤ (0xFEA0#16).toNat ∧ (0xFFFE#16).toNat ≤ 0xFFFE) := by decide

/-- `WriteDwordWritesItsBytesInOrder`, its third clause: the bytes before the failing one, and an address outside them. -/
theorem witness_WriteDwordWritesItsBytesInOrder :
    (0xFE9D#16).toNat + 2 ≤ 0xFE9F ∧
    ∃ d : Addr, ∀ k, (0xFE9F#16).toNat + k ≤ 0xFE9F → cellOf d ≠ cellOf (0xFE9F#16 + BitVec.ofNat 16 k) := by
  refine ⟨by decide, 0x8000#16, fun k hk => ?_⟩
  have h0 : k = 0 := by
    have : (0xFE9F#16).toNat = 0xFE9F := rfl
    omega
  subst h0
  decide

theorem witness_MemReadReadsBytesInOrder :
    ((∀ k < 4, isMapped (0xFE9C#16 + BitVec.ofNat 16 k) = true) ∧ 4 ∈ [1, 2, 4]) ∧
    (∀ k < 3, isMapped (0xFE9D#16 + BitVec.ofNat 16 k) = true) ∧ isMapped (0xFE9D#16 + BitVec.ofNat 16 3) = false := by
  decide

theorem witness_MemWriteStopsAtTheFirstUnmappedByte :
    small.wf = true ∧ 2 ∈ [1, 2, 4] ∧
    (∀ k < 1, isMapped (0xFFFF#16 + BitVec.ofNat 16 k) = true) ∧ isMapped (0xFFFF#16 + BitVec.ofNat 16 1) = false ∧
    (∀ k < 2, isMapped (0xFE9E#16 + BitVec.ofNat 16 k) = true) ∧
    (∀ k < 2, cellOf 0xFE9D#16 ≠ cellOf (0xFE9E#16 + BitVec.ofNat 16 k)) := by decide

theorem witness_ReadSequencesEqualMemRead :
    readWordByBytes small 0xFE9E#16 = .ok small 0x5A00#16 ∧
    readWordByBytes small 0xFE9F#16 = .fault small .outOfBounds 0xFEA0#16 := by decide

theorem witness_EchoWindowAliasesWorkRam : (waiting .reset).wf = true ∧ 0 < 0x1E00 ∧ 0x1DFF < 0x1E00 := by decide

theorem witness_EchoWindowDoesNotReachTheTail :
    0x1E00 ≤ 0x1E00 ∧ 0x1FFF < 0x2000 ∧ cellOf 0xDE00#16 = some ⟨.wram, BitVec.ofNat 13 0x1E00⟩ ∧
    0xE000 ≤ (0xE000#16).toNat ∧ (0xFDFF#16).toNat ≤ 0xFDFF := by decide

theorem witness_ReadsArePureAndWritesIdempotent :
    (waiting .reset).wf = true ∧ isWrite (.rd 0xFFFF#16) = false ∧
    (∃ t, exec (.rd 0xFFFF#16) (waiting .reset) = .next t) ∧ ∃ t, exec (.wd 0xFE9D#16 1#32) (waiting .reset) = .next t :=
  ⟨by decide, rfl, ⟨_, rfl⟩, ⟨_, rfl⟩⟩

theorem witness_OnlyWritesAndResetChangeTheBlock :
    (∃ t, step (waiting .reset) = .next t) ∧
    (∃ t, step (waiting (.request (encode (.rw 0xC000#16)))) = .next t) ∧
    isWrite (decode (encode (.rw 0xC000#16))) = false ∧
    ∀ k < accessCount (.ww 0xC000#16 1#16), cellOf 0xE002#16 ≠ cellOf (0xC000#16 + BitVec.ofNat 16 k) :=
  ⟨⟨_, rfl⟩, ⟨_, rfl⟩, by decide, by decide⟩

theorem witness_ReadsReturnTheLastWriteToTheCell :
    (waiting (.request (encode (.ww 0xDFFF#16 0xA1B2#16)))).wf = true ∧ cellOf 0xC000#16 = some ⟨.wram, 0#13⟩ ∧
    cellHistory ⟨.wram, 0#13⟩ 0x55#8 [.request (encode (.ww 0xDFFF#16 0xA1B2#16))] = 0xA1#8 ∧
    cellHistory ⟨.wram, 0#13⟩ 0x55#8 [.reset] = 0x00#8 := by decide

theorem witness_OutOfBoundsNamesTheFirstUnmappedByte :
    3 < accessCount (.wd 0xFE9D#16 1#32) ∧ isMapped 0xFEA0#16 = false ∧
    ∀ k < 3, isMapped (0xFE9D#16 + BitVec.ofNat 16 k) = true := by decide

theorem witness_ReservedCommandsRaiseIllegalCommand :
    (waiting (.request ⟨0b011#3, 0x8000#16, 0xFF#32⟩)).inputs = [.request ⟨0b011#3, 0x8000#16, 0xFF#32⟩] ∧
    (0b011#3).extractLsb' 0 2 = 0b11#2 ∧ (0b111#3).extractLsb' 0 2 = 0b11#2 := by decide

theorem witness_ResponseFieldsReportTheOutcome :
    (∃ t, exec (.wb 0x8000#16 1#8) (waiting .reset) = .next t) ∧ (∃ t, exec (.rb 0x0000#16) (waiting .reset) = .next t) ∧
    (∃ t, exec (.rw 0xFE9E#16) (waiting .reset) = .next t ∧ t.responses = [.value 0x5A00#32]) ∧
    (∃ t, exec (.rd 0xFE9D#16) (waiting .reset) = .next t ∧ t.responses = [.fault .outOfBounds 0xFEA0#16]) ∧
    ∃ t, exec (.reserved111 0x8000#16) (waiting .reset) = .next t :=
  ⟨⟨_, rfl⟩, ⟨_, rfl⟩, ⟨_, rfl, by decide⟩, ⟨_, rfl, by decide⟩, ⟨_, rfl⟩⟩

theorem witness_FaultsLeaveExactlyTheBytesBeforeThem :
    (∃ t, exec (.ww 0xFE9F#16 0xA55A#16) (waiting .reset) = .next t) ∧
    landedWrites (.ww 0xFE9F#16 0xA55A#16) = [(⟨.oam, 0x9F#13⟩, 0x5A#8)] :=
  ⟨⟨_, rfl⟩, by decide⟩

theorem witness_TheNextRequestIsAlwaysAccepted :
    ∃ s : State, s.inputs = .request (encode (.rb 0xFFFF#16)) :: [] ∧ s.faulted = true :=
  ⟨{ waiting (.request (encode (.rb 0xFFFF#16))) with responses := [.fault .outOfBounds 0x0000#16] }, rfl, rfl⟩

theorem witness_TheFaultMarkIsNeverCleared :
    ∃ s t : State, runSteps 1 s = .next t ∧ s.faulted = true :=
  ⟨{ waiting (.request (encode (.rb 0xFFFF#16))) with responses := [.fault .outOfBounds 0x0000#16] }, _, rfl, rfl⟩

theorem witness_PastResponsesDoNotInfluenceAStep :
    ∃ s s' t : State, s.block = s'.block ∧ s.inputs = s'.inputs ∧ s.responses ≠ s'.responses ∧ step s = .next t :=
  ⟨waiting .reset, { waiting .reset with responses := [.done] }, _, rfl, rfl, by decide, rfl⟩

theorem witness_HaltPolicyStopsAtTheFirstOutOfBounds :
    (∃ t, firstOutOfBounds (waiting (.request (encode (.rb 0x0000#16)))).responses = none ∧
      step (waiting (.request (encode (.rb 0x0000#16)))) = .next t ∧ t.responses = [.fault .outOfBounds 0x0000#16]) ∧
    ∃ t, step (waiting (.request (encode (.rb 0xFFFF#16)))) = .next t ∧ t.responses = [.value 0x0F#32] :=
  ⟨⟨_, rfl, rfl, rfl⟩, ⟨_, rfl, rfl⟩⟩

theorem witness_StepPerformsTheDecodedRequest :
    (waiting (.request (encode (.rb 0xFFFF#16)))).inputs = [.request (encode (.rb 0xFFFF#16))] ∧
    decode (encode (.rb 0xFFFF#16)) = .rb 0xFFFF#16 ∧ State.reset.inputs = [] := by decide

theorem witness_APlacedWordIsPerformedNext : decodeTableWord 56 0x4FFFF00000012 = some (.wb 0xFFFF#16 0x12#8) := by decide

theorem witness_EveryStepKeepsTheInvariant : ∃ s t : State, s.wf = true ∧ step s = .next t :=
  ⟨waiting (.request (encode (.wd 0xFE9C#16 0xFFFFFFFF#32))), _, by decide, rfl⟩

end Sys2Proof.Tests
end

section
/-!
PROOFS of the family `10_state.md`: the frame of a write sequence and of an instruction, the two byte operations at a
mapped address, and from them what the state keeps (R24) and how `ie` stores (R18).
-/

namespace Sys2Proof.Machine

/-! ## What an instruction leaves unchanged -/

/-- A write sequence leaves every address of a cell it does not access as it was, on every path. -/
theorem byteAt_memWriteFrom_other {a d : Addr} {k i : Nat} (b : Block) (v : Word)
    (h : ∀ j, i ≤ j → j < i + k → cellOf d ≠ cellOf (byteAddr a j)) :
    byteAt (memWriteFrom b a v k i).after d = byteAt b d := by
  induction k generalizing b i with
  | zero => rfl
  | succ k ih =>
    simp only [memWriteFrom]
    cases hc : cellOf (byteAddr a i) with
    | none => simp [byteWrite_of_unmapped b _ hc]
    | some c =>
      have hrest := ih (i := i + 1) (storeWrite b c.store c.off (lane v i)) fun j hj hjk => h j (by omega) (by omega)
      have hbyte := byteAt_storeWrite_other b (lane v i) hc (h i (by omega) (by omega))
      simpa [byteWrite_of_cell b _ hc] using hrest.trans hbyte

/-- `byteAt_memWriteFrom_other` for a whole `MemWrite`. -/
theorem byteAt_memWrite_other {a d : Addr} {n : Nat} (b : Block) (v : Word)
    (h : ∀ k < n, cellOf d ≠ cellOf (byteAddr a k)) : byteAt (memWrite b a n v).after d = byteAt b d :=
  byteAt_memWriteFrom_other b v fun j _ hj => h j (by omega)

/-- The block after a meaning that answers a next state. -/
theorem exec_block {i : Instr} {s t : State} (h : exec i s = .next t) : t.block = blockAfter i s.block := by
  obtain ⟨r, rfl⟩ := exec_cases h
  rfl

theorem blockAfter_of_not_write {i : Instr} (h : isWrite i = false) (b : Block) : blockAfter i b = b := by
  cases i with
  | wb a v => cases h
  | ww a v => cases h
  | wd a v => cases h
  | rb a => rfl
  | rw a => rfl
  | rd a => rfl
  | reserved011 a => rfl
  | reserved111 a => rfl

/-- The frame of an instruction: an address of a cell it does not access reads as before. -/
theorem byteAt_blockAfter_other {i : Instr} {d : Addr} (b : Block)
    (h : ∀ k < accessCount i, cellOf d ≠ cellOf (byteAddr i.addr k)) : byteAt (blockAfter i b) d = byteAt b d := by
  cases i with
  | wb a v => exact byteAt_memWrite_other b _ h
  | ww a v => exact byteAt_memWrite_other b _ h
  | wd a v => exact byteAt_memWrite_other b _ h
  | rb a => rfl
  | rw a => rfl
  | rd a => rfl
  | reserved011 a => rfl
  | reserved111 a => rfl

/-- Decoding keeps the address field, whatever the command (`30_encoding.md` R51). -/
@[simp] theorem decode_addr (r : Request) : (decode r).addr = r.addr := by
  unfold decode
  split <;> rfl

/-- Settles O36: the step inversion leaves a reset or one instruction, and an instruction's block is `blockAfter`, whose
frame is the frame of its write sequence. -/
theorem onlyWritesAndResetChangeTheBlock : Obligations.OnlyWritesAndResetChangeTheBlock := by
  intro s t h
  obtain ⟨rest, hin, -⟩ | ⟨r, rest, hin, hexec⟩ := step_cases h
  · exact .inl ⟨rest, hin⟩
  · have hblock : t.block = blockAfter (decode r) s.block :=
      exec_block (s := { s with inputs := rest }) hexec
    refine .inr ⟨r, rest, hin, fun hread => ?_, fun d hd => ?_⟩
    · rw [hblock, blockAfter_of_not_write hread]
    · rw [hblock]
      exact byteAt_blockAfter_other s.block (by simpa only [decode_addr, byteAddr] using hd)

/-! ## The byte operations at a mapped address -/

/-- A byte placed in a value's low lane is read from it unchanged. -/
@[simp] theorem lane_setWidth_zero (v : Byte) : lane (v.setWidth 32) 0 = v := by
  apply BitVec.eq_of_toNat_eq
  have := v.isLt
  simp [lane]
  omega

/-- The read data of one byte is the byte, zero-extended (`30_encoding.md` R54). -/
@[simp] theorem readData_one_atLane (v : Byte) : readData 1 (atLane v 0) = v.setWidth 32 := by
  apply BitVec.eq_of_toNat_eq
  have := v.isLt
  simp [readData, atLane]

/-- write_byte at a mapped address: one store write, answered `done` (`40_byte_access.md` R63). -/
theorem exec_wb_of_cell {a : Addr} {c : CellRef} (h : cellOf a = some c) (v : Byte) (s : State) :
    exec (.wb a v) s = .next ({ s with block := storeWrite s.block c.store c.off v }.respond .done) := by
  simp [exec, execWb, memWrite, memWriteFrom, byteWrite_of_cell s.block _ h, answerWrite]

/-- read_byte at a mapped address: the cell's byte, and only a response more (`40_byte_access.md` R62). -/
theorem exec_rb_of_cell {a : Addr} {c : CellRef} (h : cellOf a = some c) (s : State) :
    exec (.rb a) s = .next (s.respond (.value ((cellByte s.block c).setWidth 32))) := by
  simp [exec, execRb, memRead, memReadFrom, byteRead_of_cell s.block h, answerRead]

/-! ## The interrupt-enable register -/

/-- 0xFFFF selects `ie` (`10_state.md` R18). -/
theorem cellOf_ie : cellOf 0xFFFF#16 = some ⟨.ie, 0#13⟩ := by decide

/-- Settles O19: 0xFFFF selects the cell of `ie`, a store of eight bits that `storeWrite` replaces whole and `storeRead`
returns whole. -/
theorem interruptEnableIsPlainStorage : Obligations.InterruptEnableIsPlainStorage := by
  refine ⟨rfl, fun s v => ⟨?_, ?_⟩⟩
  · exact exec_wb_of_cell cellOf_ie v s
  · exact exec_rb_of_cell cellOf_ie s

end Sys2Proof.Machine
end

section
/-!
PROOFS of the family `20_memory.md`: how the primary and the echo window select cells of `wram` (R32, R33), that a cell
reached by two addresses is read back through either, what a store write changes (R35), and the bytes a completed write
sequence leaves, seen at every width (R37).
-/

namespace Sys2Proof.Machine

/-! ## The cells of the memory map -/

/-- Every address 0x8000-0xFE9F is mapped (`20_memory.md` R26). -/
theorem exists_cellOf_of_range {a : Addr} (hlo : 0x8000 ≤ a.toNat) (hhi : a.toNat ≤ 0xFE9F) : ∃ c, cellOf a = some c := by
  refine Option.ne_none_iff_exists'.1 fun h => ?_
  have := (cellOf_eq_none_iff a).1 h
  omega

/-- The cell of an address of the primary window (`20_memory.md` R32). -/
theorem cellOf_primary {a : Addr} (hlo : 0xC000 ≤ a.toNat) (hhi : a.toNat ≤ 0xDFFF) :
    cellOf a = some ⟨.wram, BitVec.ofNat 13 (a.toNat - 0xC000)⟩ := by
  obtain ⟨⟨st, off⟩, hc⟩ := exists_cellOf_of_range (a := a) (by omega) (by omega)
  rcases cellOf_eq_some hc with h | h | ⟨rfl, -, -, hoff⟩ | h | h | h
  case inr.inr.inl => rw [hc, ← hoff, BitVec.ofNat_toNat, BitVec.setWidth_eq]
  all_goals omega

/-- The cell of an address of the echo window (`20_memory.md` R33). -/
theorem cellOf_echo {a : Addr} (hlo : 0xE000 ≤ a.toNat) (hhi : a.toNat ≤ 0xFDFF) :
    cellOf a = some ⟨.wram, BitVec.ofNat 13 (a.toNat - 0xE000)⟩ := by
  obtain ⟨⟨st, off⟩, hc⟩ := exists_cellOf_of_range (a := a) (by omega) (by omega)
  rcases cellOf_eq_some hc with h | h | h | ⟨rfl, -, -, hoff⟩ | h | h
  case inr.inr.inr.inl => rw [hc, ← hoff, BitVec.ofNat_toNat, BitVec.setWidth_eq]
  all_goals omega

/-- Two addresses of one cell are a primary and an echo address, 0x2000 apart (`20_memory.md` R27). -/
theorem cellOf_eq_imp_distance {a d : Addr} {c : CellRef} (ha : cellOf a = some c) (hd : cellOf d = some c)
    (hlt : a.toNat < d.toNat) : d.toNat = a.toNat + 0x2000 := by
  obtain ⟨st, off⟩ := c
  have hca := cellOf_eq_some ha
  have hcd := cellOf_eq_some hd
  cases st <;> simp only [reduceCtorEq, false_and, true_and, false_or, or_false] at hca hcd <;> omega

/-- Two bytes of an access that starts in 0x8000-0xFE9F and ends there lie in different cells. -/
theorem cellOf_byteAddr_ne {a : Addr} {j l : Nat} (hlo : 0x8000 ≤ a.toNat) (hhi : a.toNat + l ≤ 0xFE9F) (hjl : j < l)
    (hl : l < 0x2000) : cellOf (byteAddr a l) ≠ cellOf (byteAddr a j) := by
  intro h
  have hj := byteAddr_toNat a j
  have hl' := byteAddr_toNat a l
  obtain ⟨c, hc⟩ := exists_cellOf_of_range (a := byteAddr a j) (by omega) (by omega)
  have := cellOf_eq_imp_distance hc (h.trans hc) (by omega)
  omega

/-- Settles O9: the primary window's cell, as the decoder's inversion gives it. -/
theorem primaryWindowOffset : Obligations.PrimaryWindowOffset := by
  refine fun a hlo hhi => ⟨_, cellOf_primary hlo hhi, ?_⟩
  rw [BitVec.toNat_ofNat]
  omega

/-! ## One cell behind two addresses -/

/-- A byte written through one address of a cell is read through any address of it (`20_memory.md` R33). -/
theorem rb_after_wb_of_same_cell {a d : Addr} {c : CellRef} {s : State} (ha : cellOf a = some c) (hd : cellOf d = some c)
    (hs : s.wf = true) (v : Byte) :
    ∃ t, exec (.wb a v) s = .next t ∧ exec (.rb d) t = .next (t.respond (.value (v.setWidth 32))) := by
  refine ⟨_, exec_wb_of_cell ha v s, ?_⟩
  rw [exec_rb_of_cell hd, respond_block, cellByte_storeWrite_same hs (cellOf_inside ha)]

/-- Settles O32: both windows give the offset `k` into `wram`, and one cell is read back through either address. -/
theorem echoWindowAliasesWorkRam : Obligations.EchoWindowAliasesWorkRam := by
  intro k hk
  have hprimary : cellOf (BitVec.ofNat 16 (0xC000 + k)) = some ⟨.wram, BitVec.ofNat 13 k⟩ := by
    have ha : (BitVec.ofNat 16 (0xC000 + k)).toNat = 0xC000 + k := by rw [BitVec.toNat_ofNat]; omega
    rw [cellOf_primary (by omega) (by omega), ha, Nat.add_sub_cancel_left]
  have hecho : cellOf (BitVec.ofNat 16 (0xE000 + k)) = some ⟨.wram, BitVec.ofNat 13 k⟩ := by
    have ha : (BitVec.ofNat 16 (0xE000 + k)).toNat = 0xE000 + k := by rw [BitVec.toNat_ofNat]; omega
    rw [cellOf_echo (by omega) (by omega), ha, Nat.add_sub_cancel_left]
  exact ⟨hprimary, hecho, fun s v hs =>
    ⟨rb_after_wb_of_same_cell hprimary hecho hs v, rb_after_wb_of_same_cell hecho hprimary hs v⟩⟩

/-! ## What a store write changes -/

/-- Settles O15: the store primitives name a cell, and a store write changes exactly the cell it names. -/
theorem storeWriteChangesExactlyItsCell : Obligations.StoreWriteChangesExactlyItsCell := by
  refine fun b off v => ⟨⟨rfl, rfl, rfl, rfl, rfl⟩, fun hb st hoff => ⟨?_, fun st' off' hoff' hne => ?_⟩⟩
  · exact cellByte_storeWrite_same (c := ⟨st, off⟩) hb hoff v
  · refine cellByte_storeWrite_other (c := ⟨st, off⟩) (d := ⟨st', off'⟩) hoff hoff' (fun h => ?_) v
    obtain ⟨rfl, rfl⟩ := CellRef.mk.inj h
    exact hne.elim (· rfl) (· rfl)

/-! ## A write sequence that completes -/

/-- A write sequence completes where every byte is mapped (`20_memory.md` R40). -/
theorem memWriteFrom_completes {a : Addr} {k i : Nat} (b : Block) (v : Word)
    (hcells : ∀ j, i ≤ j → j < i + k → ∃ c, cellOf (byteAddr a j) = some c) :
    memWriteFrom b a v k i = .ok (memWriteFrom b a v k i).after () := by
  induction k generalizing b i with
  | zero => rfl
  | succ k ih =>
    obtain ⟨c, hc⟩ := hcells i (by omega) (by omega)
    simp only [memWriteFrom, byteWrite_of_cell b _ hc]
    exact ih _ fun j hj hjk => hcells j (by omega) (by omega)

/-- Where the bytes of a write sequence lie in different cells, each address holds its byte of the value afterwards: its
own write puts it there, and the later ones are to other cells. -/
theorem byteAt_memWriteFrom_same {a : Addr} {k i j : Nat} {b : Block} (hb : b.wf = true) (v : Word)
    (hcells : ∀ j, i ≤ j → j < i + k → ∃ c, cellOf (byteAddr a j) = some c)
    (hdistinct : ∀ j l, i ≤ j → j < l → l < i + k → cellOf (byteAddr a l) ≠ cellOf (byteAddr a j))
    (hj : i ≤ j) (hjk : j < i + k) : byteAt (memWriteFrom b a v k i).after (byteAddr a j) = some (lane v j) := by
  induction k generalizing b i with
  | zero => omega
  | succ k ih =>
    obtain ⟨c, hc⟩ := hcells i (by omega) (by omega)
    simp only [memWriteFrom, byteWrite_of_cell b _ hc]
    rcases Nat.eq_or_lt_of_le hj with rfl | hlt
    · rw [byteAt_memWriteFrom_other _ v fun l hl hlk => (hdistinct i l le_rfl hl (by omega)).symm]
      exact byteAt_storeWrite_same hb _ hc
    · exact ih (storeWrite_wf hb _ _ _) (fun j hj hjk => hcells j (by omega) (by omega))
        (fun j l hj hjl hlk => hdistinct j l (by omega) hjl (by omega)) hlt (by omega)

/-- `MemWrite` of up to four bytes inside 0x8000-0xFE9F completes, and byte k of the value is the byte at `addr ⊕ k`
afterwards, across windows too (`20_memory.md` R37, R40). -/
theorem memWrite_in_range {a : Addr} {n : Nat} {b : Block} (hb : b.wf = true) (v : Word) (hn : n ≤ 4)
    (hlo : 0x8000 ≤ a.toNat) (hhi : a.toNat + n ≤ 0xFEA0) :
    ∃ b', memWrite b a n v = .ok b' () ∧ ∀ k < n, byteAt b' (byteAddr a k) = some (lane v k) := by
  have hcells : ∀ j, 0 ≤ j → j < 0 + n → ∃ c, cellOf (byteAddr a j) = some c := fun j _ hj => by
    have := byteAddr_toNat a j
    exact exists_cellOf_of_range (by omega) (by omega)
  refine ⟨_, memWriteFrom_completes b v hcells, fun k hk => ?_⟩
  exact byteAt_memWriteFrom_same hb v hcells
    (fun j l _ hjl hl => cellOf_byteAddr_ne hlo (by omega) hjl (by omega)) (Nat.zero_le k) (by omega)

/-! ## Reads in terms of the bytes at the addresses -/

theorem byteRead_of_byteAt {b : Block} {a : Addr} {v : Byte} (h : byteAt b a = some v) : byteRead b a = .ok b v := by
  obtain ⟨c, hc, rfl⟩ := Option.map_eq_some_iff.1 (byteAt_eq b a ▸ h)
  exact byteRead_of_cell b hc

/-- read_byte answers the byte at its address (`40_byte_access.md` R62). -/
theorem exec_rb_of_byteAt {s : State} {a : Addr} {v : Byte} (h : byteAt s.block a = some v) :
    exec (.rb a) s = .next (s.respond (.value (v.setWidth 32))) := by
  simp [exec, execRb, memRead, memReadFrom, byteRead_of_byteAt h, answerRead]

/-- The read data of two bytes is the second over the first, zero-extended (`20_memory.md` R37, R39). -/
theorem readData_two_atLane (lo hi : Byte) : readData 2 (atLane lo 0 ||| atLane hi 1) = (hi ++ lo).setWidth 32 := by
  ext j hj
  rw [BitVec.getElem_setWidth, BitVec.getLsbD_append]
  simp only [readData, atLane]
  grind

/-- read_word answers the byte at `addr ⊕ 1` over the byte at `addr` (`41_multibyte_access.md` R65). -/
theorem exec_rw_of_byteAt {s : State} {a : Addr} {lo hi : Byte} (hlo : byteAt s.block a = some lo)
    (hhi : byteAt s.block (byteAddr a 1) = some hi) :
    exec (.rw a) s = .next (s.respond (.value ((hi ++ lo).setWidth 32))) := by
  simp [exec, execRw, memRead, memReadFrom, byteRead_of_byteAt hlo, byteRead_of_byteAt hhi, answerRead,
    readData_two_atLane]

/-! ## Accesses of mixed width -/

/-- Byte k of a value widened to 32 bits is its own byte k. -/
theorem lane_setWidth {w k : Nat} (v : BitVec w) (hk : k < 4) : lane (v.setWidth 32) k = v.extractLsb' (8 * k) 8 :=
  BitVec.extractLsb'_setWidth_of_le (by omega)

/-- After `MemWrite` of up to four bytes inside 0x8000-0xFE9F, read_byte at `addr ⊕ k` answers byte k of the value
(`20_memory.md` R37). -/
theorem rb_after_memWrite {s : State} {a : Addr} {n : Nat} (hs : s.wf = true) (v : Word) (hn : n ≤ 4)
    (hlo : 0x8000 ≤ a.toNat) (hhi : a.toNat + n ≤ 0xFEA0) :
    ∃ t, answerWrite s (memWrite s.block a n v) = .next t ∧
      ∀ k < n, exec (.rb (byteAddr a k)) t = .next (t.respond (.value ((lane v k).setWidth 32))) := by
  obtain ⟨b, hw, hbytes⟩ := memWrite_in_range hs v hn hlo hhi
  exact ⟨{ s with block := b }.respond .done, by rw [hw]; rfl, fun k hk => exec_rb_of_byteAt (hbytes k hk)⟩

/-- write_byte at a mapped address completes, puts the byte there, leaves every other cell, and keeps the invariant
(`40_byte_access.md` R63). -/
theorem exec_wb_spec {s : State} {a : Addr} {c : CellRef} (hs : s.wf = true) (h : cellOf a = some c) (v : Byte) :
    ∃ t, exec (.wb a v) s = .next t ∧ t.wf = true ∧ byteAt t.block a = some v ∧
      ∀ d, cellOf d ≠ cellOf a → byteAt t.block d = byteAt s.block d :=
  ⟨_, exec_wb_of_cell h v s, storeWrite_wf hs _ _ v, byteAt_storeWrite_same hs v h,
    fun _ hd => byteAt_storeWrite_other s.block v h hd⟩

/-- Byte writes at `addr` and `addr ⊕ 1` are read as one word, the second over the first (`20_memory.md` R37). -/
theorem rw_after_two_wb {s : State} {a : Addr} (hs : s.wf = true) (hlo : 0x8000 ≤ a.toNat) (hhi : a.toNat ≤ 0xFE9E)
    (x y : Byte) :
    ∃ t u, exec (.wb a x) s = .next t ∧ exec (.wb (byteAddr a 1) y) t = .next u ∧
      exec (.rw a) u = .next (u.respond (.value ((y ++ x).setWidth 32))) := by
  have hnext := byteAddr_toNat a 1
  obtain ⟨c, hc⟩ := exists_cellOf_of_range (a := a) hlo (by omega)
  obtain ⟨d, hd⟩ := exists_cellOf_of_range (a := byteAddr a 1) (by omega) (by omega)
  have hne : cellOf a ≠ cellOf (byteAddr a 1) := by
    simpa using (cellOf_byteAddr_ne (j := 0) (l := 1) hlo (by omega) (by omega) (by omega)).symm
  obtain ⟨t, ht, hwf, hx, -⟩ := exec_wb_spec hs hc x
  obtain ⟨u, hu, -, hy, hframe⟩ := exec_wb_spec hwf hd y
  exact ⟨t, u, ht, hu, exec_rw_of_byteAt ((hframe a hne).trans hx) hy⟩

/-- Settles O30: a wide write leaves its lanes at the addresses that byte reads use, and a word read takes the bytes that
byte writes left. -/
theorem mixedWidthAccessesSeeTheSameBytes : Obligations.MixedWidthAccessesSeeTheSameBytes := by
  refine fun s a hs hlo hhi => ⟨fun v => ?_, fun hhi4 v => ?_, fun x y => rw_after_two_wb hs hlo hhi x y⟩
  · obtain ⟨t, ht, hread⟩ := rb_after_memWrite (n := 2) hs (v.setWidth 32) (by omega) hlo (by omega)
    exact ⟨t, ht, fun k hk => by rw [← lane_setWidth v (by omega)]; exact hread k hk⟩
  · exact rb_after_memWrite (n := 4) hs v le_rfl hlo (by omega)

end Sys2Proof.Machine
end

section
/-!
PROOFS of the family `70_reset_and_hazards.md`: the block as construction leaves it, and that a read of any width that
completes on it answers 0 (R85).
-/

namespace Sys2Proof.Machine

/-! ## A read of the block that construction leaves -/

/-- Construction leaves the reset byte in every cell (`70_reset_and_hazards.md` R85). -/
@[simp] theorem storeRead_new (st : Store) (off : Off) : storeRead Block.new st off = 0x00#8 := by
  cases st with
  | vram => rfl
  | eram => rfl
  | wram => rfl
  | oam => rfl
  | ie => rfl

@[simp] theorem cellByte_new (c : CellRef) : cellByte Block.new c = 0x00#8 := storeRead_new c.store c.off

theorem byteRead_new_of_cell {a : Addr} {c : CellRef} (h : cellOf a = some c) :
    byteRead Block.new a = .ok Block.new 0x00#8 := by
  rw [byteRead_of_cell _ h, cellByte_new]

/-- A zero byte adds nothing to the value, at any lane. -/
@[simp] theorem atLane_zero (i : Nat) : atLane 0x00#8 i = 0#32 := by
  simp [atLane]

@[simp] theorem readData_zero (n : Nat) : readData n 0#32 = 0#32 := by
  simp [readData]

/-- After construction a read sequence over mapped addresses completes and adds nothing to the bytes before it. -/
theorem memReadFrom_new {a : Addr} {k i : Nat} (r : Word)
    (hcells : ∀ j, i ≤ j → j < i + k → ∃ c, cellOf (byteAddr a j) = some c) :
    memReadFrom Block.new a k i r = .ok Block.new r := by
  induction k generalizing i r with
  | zero => rfl
  | succ k ih =>
    obtain ⟨c, hc⟩ := hcells i le_rfl (by omega)
    simp only [memReadFrom, byteRead_new_of_cell hc, atLane_zero, BitVec.or_zero]
    exact ih r fun j hj hjk => hcells j (by omega) (by omega)

/-- After construction a read of n mapped bytes answers 0 and changes nothing else. -/
theorem answerRead_memRead_new {s : State} {a : Addr} {n : Nat} (hs : s.block = Block.new)
    (hcells : ∀ k < n, ∃ c, cellOf (byteAddr a k) = some c) :
    answerRead s n (memRead s.block a n) = .next (s.respond (.value 0#32)) := by
  have hread : memRead s.block a n = .ok s.block 0#32 := by
    rw [hs]
    exact memReadFrom_new 0#32 fun j _ hj => hcells j (by omega)
  rw [hread, answerRead, readData_zero]

/-- Every byte of an access inside 0x8000-0xFE9F is mapped (`20_memory.md` R26). -/
theorem exists_cellOf_byteAddr_of_range {a : Addr} {n k : Nat} (hlo : 0x8000 ≤ a.toNat) (hhi : a.toNat + n ≤ 0xFEA0)
    (hk : k < n) : ∃ c, cellOf (byteAddr a k) = some c := by
  have := byteAddr_toNat a k
  exact exists_cellOf_of_range (by omega) (by omega)

/-- Settles O17: every cell reads 0x00, so a mapped byte reads 0, and a word or double word whose bytes all lie in
0x8000-0xFE9F completes and answers 0. -/
theorem afterConstructionEverythingReadsZero : Obligations.AfterConstructionEverythingReadsZero := by
  refine fun s a st off hs => ⟨?_, fun hmapped => ?_, fun hlo hhi => ?_, fun hlo hhi => ?_⟩
  · rw [hs, storeRead_new]
  · obtain ⟨c, hc⟩ := Option.isSome_iff_exists.1 hmapped
    rw [exec_rb_of_cell hc, hs, cellByte_new, BitVec.setWidth_zero]
  · exact answerRead_memRead_new (n := 2) hs fun k hk => exists_cellOf_byteAddr_of_range hlo (by omega) hk
  · exact answerRead_memRead_new (n := 4) hs fun k hk => exists_cellOf_byteAddr_of_range hlo (by omega) hk

end Sys2Proof.Machine
end

section
/-!
PROOFS of the encoding: decode and encode are inverse where they should be (R51, R54, R61), the layout of the request word
(R51), its seven bytes (log 10), and the refusal of listing numbers that do not fit (R59).
-/

namespace Sys2Proof

/-! ## The request word -/

/-- The fields of a request word are read back (`30_encoding.md` R51). -/
@[simp] theorem requestOfWord_word (r : Request) : requestOfWord r.word = r := by
  obtain ⟨c, a, w⟩ := r
  have hc := c.isLt
  have ha := a.isLt
  have hw := w.isLt
  have hword := request_word_toNat ⟨c, a, w⟩
  simp only [requestOfWord, Request.mk.injEq]
  refine ⟨BitVec.eq_of_toNat_eq ?_, BitVec.eq_of_toNat_eq ?_, BitVec.eq_of_toNat_eq ?_⟩ <;>
    simp only [BitVec.extractLsb'_toNat, Nat.shiftRight_eq_div_pow, hword] <;> omega

/-- The word of a word's fields is the word (`30_encoding.md` R51). -/
@[simp] theorem word_requestOfWord (w : BitVec 51) : (requestOfWord w).word = w := by
  have hw := w.isLt
  refine BitVec.eq_of_toNat_eq ?_
  rw [request_word_toNat]
  simp only [requestOfWord, BitVec.extractLsb'_toNat, Nat.shiftRight_eq_div_pow]
  omega

/-- Settles O4: the word's number field by field, and both directions between a word and its fields. -/
theorem requestWordHoldsItsFields : Obligations.RequestWordHoldsItsFields :=
  fun r w => ⟨request_word_toNat r, requestOfWord_word r, word_requestOfWord w⟩

/-! ## The command map -/

section
variable (a : Addr) (w : Word)

@[simp] theorem decode_rb : decode ⟨0b000#3, a, w⟩ = .rb a := by simp [decode, writeEnable, sizeField, accessBytes]
@[simp] theorem decode_rw : decode ⟨0b001#3, a, w⟩ = .rw a := by simp [decode, writeEnable, sizeField, accessBytes]
@[simp] theorem decode_rd : decode ⟨0b010#3, a, w⟩ = .rd a := by simp [decode, writeEnable, sizeField, accessBytes]
@[simp] theorem decode_reserved011 : decode ⟨0b011#3, a, w⟩ = .reserved011 a := by
  simp [decode, writeEnable, sizeField, accessBytes]
@[simp] theorem decode_wb : decode ⟨0b100#3, a, w⟩ = .wb a (w.setWidth 8) := by
  simp [decode, writeEnable, sizeField, accessBytes]
@[simp] theorem decode_ww : decode ⟨0b101#3, a, w⟩ = .ww a (w.setWidth 16) := by
  simp [decode, writeEnable, sizeField, accessBytes]
@[simp] theorem decode_wd : decode ⟨0b110#3, a, w⟩ = .wd a w := by
  simp [decode, writeEnable, sizeField, accessBytes]
@[simp] theorem decode_reserved111 : decode ⟨0b111#3, a, w⟩ = .reserved111 a := by
  simp [decode, writeEnable, sizeField, accessBytes]

end

/-- The eight commands (`30_encoding.md` R61). -/
theorem cmd_cases : ∀ c : BitVec 3,
    c = 0b000#3 ∨ c = 0b001#3 ∨ c = 0b010#3 ∨ c = 0b011#3 ∨ c = 0b100#3 ∨ c = 0b101#3 ∨ c = 0b110#3 ∨ c = 0b111#3 := by
  decide

/-! ## Decode after encode -/

/-- A value widened to the write-data field and cut to its own width is the value (`30_encoding.md` R54). -/
theorem setWidth_setWidth_32 {n : Nat} (h : n ≤ 32) (v : BitVec n) : (v.setWidth 32).setWidth n = v := by
  rw [BitVec.setWidth_setWidth_of_le v h, BitVec.setWidth_eq]

/-- The request decoder reads every instruction back from its request. -/
@[simp] theorem decode_encode (i : Instr) : decode (encode i) = i := by
  cases i with
  | rb a => exact decode_rb a _
  | rw a => exact decode_rw a _
  | rd a => exact decode_rd a _
  | wb a v => exact (decode_wb a _).trans (congrArg (Instr.wb a) (setWidth_setWidth_32 (by decide) v))
  | ww a v => exact (decode_ww a _).trans (congrArg (Instr.ww a) (setWidth_setWidth_32 (by decide) v))
  | wd a v => exact decode_wd a v
  | reserved011 a => exact decode_reserved011 a _
  | reserved111 a => exact decode_reserved111 a _

/-- The low bytes of a number that they can hold stand for it (log 10). -/
theorem natOfBytes_bytesOfNat {k n : Nat} (h : n < 256 ^ k) : natOfBytes (bytesOfNat k n) = n := by
  induction k generalizing n with
  | zero => simp [bytesOfNat, natOfBytes]; omega
  | succ k ih =>
    have hdiv : n / 256 < 256 ^ k := Nat.div_lt_of_lt_mul (by rwa [Nat.pow_succ'] at h)
    simp only [bytesOfNat, natOfBytes, ih hdiv, BitVec.toNat_ofNat]
    omega

@[simp] theorem length_bytesOfNat (k n : Nat) : (bytesOfNat k n).length = k := by
  induction k generalizing n with
  | zero => rfl
  | succ k ih => simp [bytesOfNat, ih]

theorem requestOfNat_of_lt {n : Nat} (h : n < 2 ^ 51) : requestOfNat n = .ok (requestOfWord (BitVec.ofNat 51 n)) :=
  if_pos h

theorem requestOfNat_of_ge {n : Nat} (h : 2 ^ 51 ≤ n) : requestOfNat n = .error .bitAboveRequest :=
  if_neg (by omega)

/-- The byte decoder on the seven bytes of a number is the request decoder on that number's request. -/
theorem decodeBytes_bytesOfNat {n : Nat} (h : n < 2 ^ 56) :
    decodeBytes (bytesOfNat 7 n) = (requestOfNat n).map decode := by
  simp only [decodeBytes, length_bytesOfNat, if_true, natOfBytes_bytesOfNat (k := 7) h]
  cases requestOfNat n <;> rfl

/-- The byte decoder reads every instruction back from its seven bytes. -/
theorem decodeBytes_encodeBytes (i : Instr) : decodeBytes (encodeBytes i) = .ok i := by
  have hlt := (encode i).word.isLt
  rw [encodeBytes, decodeBytes_bytesOfNat (by omega), requestOfNat_of_lt hlt]
  simp [Except.map]

/-- Settles O2: decode undoes encode constructor by constructor, the word keeps the request's fields, and the seven bytes
keep the word's number. -/
theorem decodeOfEncodeIsTheInstruction : Obligations.DecodeOfEncodeIsTheInstruction :=
  fun i => ⟨decode_encode i, by rw [requestOfWord_word, decode_encode], decodeBytes_encodeBytes i⟩

/-- Settles O5: the byte decoder's checks, in its order. -/
theorem onlyRequestBytesDecode : Obligations.OnlyRequestBytesDecode := by
  refine fun bs => ⟨fun hlen => ?_, fun hlen hge => ?_, fun hlen hlt => ?_⟩
  · simp only [decodeBytes, hlen, if_false]
  · simp only [decodeBytes, hlen, if_true, requestOfNat_of_ge hge]
  · simp only [decodeBytes, hlen, if_true, requestOfNat_of_lt hlt]
    exact ⟨_, rfl⟩

/-- Settles O1: the eight words, each decoded by evaluation. -/
theorem writtenOutRequestWordsDecode : Obligations.WrittenOutRequestWordsDecode := by
  unfold Obligations.WrittenOutRequestWordsDecode
  decide

/-! ## The bits a request uses -/

/-- The request of the decoded instruction keeps the command (`30_encoding.md` R61). -/
theorem decode_cmd (r : Request) : (decode r).cmd = r.cmd := by
  obtain ⟨c, a, w⟩ := r
  rcases cmd_cases c with rfl | rfl | rfl | rfl | rfl | rfl | rfl | rfl <;> simp [Instr.cmd]

/-- The write data the decoded instruction keeps: the low n bytes of an n-byte write, else nothing
(`30_encoding.md` R51, R54; log 11). -/
theorem decode_wdata (r : Request) :
    (decode r).wdata =
      if r.cmd = 0b100#3 then (r.wdata.setWidth 8).setWidth 32
      else if r.cmd = 0b101#3 then (r.wdata.setWidth 16).setWidth 32
      else if r.cmd = 0b110#3 then r.wdata
      else 0#32 := by
  obtain ⟨c, a, w⟩ := r
  rcases cmd_cases c with rfl | rfl | rfl | rfl | rfl | rfl | rfl | rfl <;> simp [Instr.wdata]

/-- Instructions are equal when their three request fields are: encoding is injective. -/
theorem instr_eq_iff (i j : Instr) : i = j ↔ i.cmd = j.cmd ∧ i.addr = j.addr ∧ i.wdata = j.wdata := by
  refine ⟨by rintro rfl; exact ⟨rfl, rfl, rfl⟩, fun ⟨hcmd, haddr, hwdata⟩ => ?_⟩
  have henc : encode i = encode j := by simp only [encode, hcmd, haddr, hwdata]
  rw [← decode_encode i, henc, decode_encode]

/-- Two write-data fields agree in their low `n` bits exactly when they are the same field cut to those bits. -/
theorem setWidth_eq_iff_low_bits {n : Nat} (h : n ≤ 32) (x y : Word) :
    (x.setWidth n).setWidth 32 = (y.setWidth n).setWidth 32 ↔ ∀ j < n, x.getLsbD j = y.getLsbD j := by
  refine ⟨fun heq j hj => ?_, fun hbits => congrArg _ (BitVec.eq_of_getLsbD_eq fun j hj => ?_)⟩
  · simpa [BitVec.getLsbD_setWidth, hj, show j < 32 by omega] using congrArg (·.getLsbD j) heq
  · simpa [BitVec.getLsbD_setWidth, hj] using hbits j hj

/-- Settles O3: the decoded instruction keeps the command, the address and the used bits of the data, and nothing else. -/
theorem onlyUsedBitsOfARequestMatter : Obligations.OnlyUsedBitsOfARequestMatter := by
  intro r q
  rw [instr_eq_iff, decode_cmd, decode_cmd, Machine.decode_addr, Machine.decode_addr, decode_wdata, decode_wdata]
  refine and_congr_right fun hcmd => and_congr_right fun _ => ?_
  rw [← hcmd, ← setWidth_eq_iff_low_bits (n := 8) (by decide), ← setWidth_eq_iff_low_bits (n := 16) (by decide)]
  by_cases h4 : r.cmd = 0b100#3
  · simp [h4]
  by_cases h5 : r.cmd = 0b101#3
  · simp [h5]
  by_cases h6 : r.cmd = 0b110#3
  · simp [h6]
  · simp [h4, h5, h6]

/-! ## Listing requests -/

namespace Machine

/-- A listing request with a number that does not fit is refused (`30_encoding.md` R59). -/
theorem assemble_of_ill_formed {r : ListingRequest} (h : ¬ r.wellFormed = true) : assemble r = none :=
  if_neg h

/-- Settles O6: `assemble` refuses what is not well-formed, and a number that fits is the number of its bits. -/
theorem listingNumbersThatDoNotFitAreRefused : Obligations.ListingNumbersThatDoNotFitAreRefused := by
  intro a v c
  refine ⟨fun ha => ?_, fun hv => ?_, fun hv => ?_, fun hv => ?_, fun hc => ?_, fun ha => ?_⟩
  · refine ⟨?_, ?_, ?_, ?_, ?_, ?_, ?_⟩ <;>
      exact assemble_of_ill_formed (by simp [ListingRequest.wellFormed, addrFits]; omega)
  · exact assemble_of_ill_formed (by simp [ListingRequest.wellFormed, valueFits]; omega)
  · exact assemble_of_ill_formed (by simp [ListingRequest.wellFormed, valueFits]; omega)
  · constructor <;> exact assemble_of_ill_formed (by simp [ListingRequest.wellFormed, valueFits]; omega)
  · exact assemble_of_ill_formed (by simp [ListingRequest.wellFormed, cmdFits]; omega)
  · have haddr : (BitVec.ofNat 16 a).toNat = a := Nat.mod_eq_of_lt ha
    refine ⟨?_, ?_, ?_, fun hv => ?_, fun hv => ?_, fun hv => ?_, fun hv hc => ?_⟩
    · exact ⟨_, if_pos (by simpa [ListingRequest.wellFormed, addrFits] using ha), _, decode_encode _, haddr⟩
    · exact ⟨_, if_pos (by simpa [ListingRequest.wellFormed, addrFits] using ha), _, decode_encode _, haddr⟩
    · exact ⟨_, if_pos (by simpa [ListingRequest.wellFormed, addrFits] using ha), _, decode_encode _, haddr⟩
    · exact ⟨_, if_pos (by simpa [ListingRequest.wellFormed, addrFits, valueFits] using ⟨ha, hv⟩), _, _,
        decode_encode _, haddr, Nat.mod_eq_of_lt hv⟩
    · exact ⟨_, if_pos (by simpa [ListingRequest.wellFormed, addrFits, valueFits] using ⟨ha, hv⟩), _, _,
        decode_encode _, haddr, Nat.mod_eq_of_lt hv⟩
    · exact ⟨_, if_pos (by simpa [ListingRequest.wellFormed, addrFits, valueFits] using ⟨ha, hv⟩), _, _,
        decode_encode _, haddr, Nat.mod_eq_of_lt hv⟩
    · exact ⟨_, if_pos (by simpa [ListingRequest.wellFormed, addrFits, valueFits, cmdFits] using ⟨⟨hc, ha⟩, hv⟩),
        Nat.mod_eq_of_lt hc, haddr, Nat.mod_eq_of_lt hv⟩

end Machine

end Sys2Proof
end

section
/-!
PROOFS of the address map: the decoder window by window (R29-R31), its gate-level form (R36), the region-select outputs and
store selects (R55, R56), how many addresses are mapped (R26), how addresses and cells correspond (R27), and that the bytes
at all addresses determine the block.
-/

namespace Sys2Proof.Machine

/-! ## The decoder, window by window -/

/-- The number of an address is in a window's closed interval (`20_memory.md` R25). -/
def Window.Holds (w : Window) (a : Addr) : Prop := w.first.toNat ≤ a.toNat ∧ a.toNat ≤ w.last.toNat

/-- What the decoder answers in a window: its store and the offset from its first address. -/
def Window.answer (w : Window) (a : Addr) : Decoded :=
  .mapped w w.store (BitVec.ofNat 13 (a.toNat - w.first.toNat))

theorem Window.holds_iff (w : Window) (a : Addr) : w.Holds a ↔ w.first ≤ a ∧ a ≤ w.last := by
  rw [BitVec.le_def, BitVec.le_def, Window.Holds]

/-- No address is in two windows (`20_memory.md` R27). -/
theorem Window.eq_of_holds {w w' : Window} {a : Addr} (h : w.Holds a) (h' : w'.Holds a) : w = w' := by
  obtain ⟨hlo, hhi⟩ := h
  obtain ⟨hlo', hhi'⟩ := h'
  cases w <;> cases w' <;> simp only [Window.first, Window.last, BitVec.toNat_ofNat, reduceCtorEq] at * <;> omega

/-- Each interval has its window's size (`20_memory.md` R25). -/
theorem Window.last_toNat (w : Window) : w.last.toNat + 1 = w.first.toNat + w.size := by
  cases w <;> decide

theorem Window.size_le (w : Window) : w.size ≤ 2 ^ 13 := by
  cases w <;> decide

/-- The unmapped ranges (`20_memory.md` R26). -/
def InNoWindow (a : Addr) : Prop := a.toNat < 0x8000 ∨ (0xFEA0 ≤ a.toNat ∧ a.toNat < 0xFFFF)

/-- An address is in a window, which the decoder answers, or in an unmapped range. -/
theorem window_or_unmapped (a : Addr) :
    (∃ w : Window, w.Holds a ∧ decodeAddr a = w.answer a) ∨ (InNoWindow a ∧ decodeAddr a = .unmapped) := by
  rcases decodeAddr_cases a with ⟨win, st, base, size, off, hd, hoff, hlo, hhi, -, hw⟩ | ⟨hd, hun⟩
  · have hoff : off = BitVec.ofNat 13 (a.toNat - base) := by rw [← hoff, BitVec.ofNat_toNat, BitVec.setWidth_eq]
    subst hoff
    refine .inl ⟨win, ?_⟩
    rcases hw with ⟨rfl, rfl, rfl, rfl⟩ | ⟨rfl, rfl, rfl, rfl⟩ | ⟨rfl, rfl, rfl, rfl⟩ | ⟨rfl, rfl, rfl, rfl⟩ |
        ⟨rfl, rfl, rfl, rfl⟩ | ⟨rfl, rfl, rfl, rfl⟩ <;>
      exact ⟨⟨hlo, Nat.le_of_lt_succ hhi⟩, hd⟩
  · exact .inr ⟨hun, hd⟩

/-- The unmapped ranges meet no window. -/
theorem Window.not_holds_of_inNoWindow {a : Addr} (h : InNoWindow a) (w : Window) : ¬ w.Holds a := by
  rintro ⟨hlo, hhi⟩
  unfold InNoWindow at h
  cases w <;> simp only [Window.first, Window.last, BitVec.toNat_ofNat] at hlo hhi <;> omega

/-- Inside a window's interval the decoder answers that window (`20_memory.md` R30). -/
theorem decodeAddr_of_holds {w : Window} {a : Addr} (h : w.Holds a) : decodeAddr a = w.answer a := by
  obtain ⟨w', hw', hd⟩ | ⟨hun, -⟩ := window_or_unmapped a
  · rwa [Window.eq_of_holds h hw']
  · exact absurd h (Window.not_holds_of_inNoWindow hun w)

/-- In the unmapped ranges the decoder answers the guard (`20_memory.md` R26, R30). -/
theorem decodeAddr_of_inNoWindow {a : Addr} (h : InNoWindow a) : decodeAddr a = .unmapped := by
  obtain ⟨w, hw, -⟩ | ⟨-, hd⟩ := window_or_unmapped a
  · exact absurd hw (Window.not_holds_of_inNoWindow h w)
  · exact hd

/-- The decoder answers a window only inside its interval. -/
theorem decodeAddr_eq_mapped {a : Addr} {w : Window} {st : Store} {off : Off} (h : decodeAddr a = .mapped w st off) :
    w.Holds a ∧ st = w.store ∧ off = BitVec.ofNat 13 (a.toNat - w.first.toNat) := by
  obtain ⟨w', hw', hd⟩ | ⟨-, hd⟩ := window_or_unmapped a
  · obtain ⟨rfl, rfl, rfl⟩ := Decoded.mapped.inj (hd.symm.trans h)
    exact ⟨hw', rfl, rfl⟩
  · rw [hd] at h
    cases h

/-- The offset of an address inside a window fits in 13 bits (`20_memory.md` R30). -/
theorem Window.offset_toNat {w : Window} {a : Addr} (h : w.Holds a) :
    (BitVec.ofNat 13 (a.toNat - w.first.toNat)).toNat = a.toNat - w.first.toNat := by
  have hlast := w.last_toNat
  have hsize := w.size_le
  obtain ⟨hlo, hhi⟩ := h
  exact Nat.mod_eq_of_lt (by omega)

/-- A window with the right offset is what the decoder answers inside its interval. -/
theorem mapped_eq_decodeAddr {w : Window} {off : Off} {a : Addr} (h : w.Holds a)
    (hoff : off.toNat = a.toNat - w.first.toNat) : Decoded.mapped w w.store off = decodeAddr a := by
  rw [decodeAddr_of_holds h, Window.answer, ← hoff, BitVec.ofNat_toNat, BitVec.setWidth_eq]

/-- Settles O7: each range is one window's interval, or unmapped. -/
theorem addressDecoderFollowsTheMap : Obligations.AddressDecoderFollowsTheMap := by
  refine fun a => ⟨fun hlo hhi => ?_, fun hlo hhi => ?_, fun hlo hhi => ?_, fun hlo hhi => ?_, fun hlo hhi => ?_,
    fun h => ?_, fun h => ?_⟩
  · exact decodeAddr_of_holds (w := .vram) ⟨hlo, hhi⟩
  · exact decodeAddr_of_holds (w := .eram) ⟨hlo, hhi⟩
  · exact decodeAddr_of_holds (w := .wram) ⟨hlo, hhi⟩
  · exact decodeAddr_of_holds (w := .echo) ⟨hlo, hhi⟩
  · exact decodeAddr_of_holds (w := .oam) ⟨hlo, hhi⟩
  · rw [decodeAddr_of_holds (w := .ie) ⟨h.ge, h.le⟩, Window.answer, h]
    rfl
  · exact decodeAddr_of_inNoWindow (by unfold InNoWindow; omega)

/-- Settles O8: the decoder answers a window exactly inside its interval, and the intervals are disjoint. -/
theorem theWindowTableIsWhatTheDecoderDecides : Obligations.TheWindowTableIsWhatTheDecoderDecides := by
  refine fun a w => ⟨?_, fun st off h => ?_, fun w' hne hlo hhi h' => ?_, w.last_toNat⟩
  · rw [← Window.holds_iff]
    exact ⟨fun h => ⟨_, _, decodeAddr_of_holds h⟩, fun ⟨_, _, h⟩ => (decodeAddr_eq_mapped h).1⟩
  · obtain ⟨hw, rfl, rfl⟩ := decodeAddr_eq_mapped h
    exact ⟨rfl, Window.offset_toNat hw⟩
  · exact hne (Window.eq_of_holds ((w'.holds_iff a).2 h') ((w.holds_iff a).2 ⟨hlo, hhi⟩))

/-! ## The gate-level form -/

/-- Settles O10: each test of the gate-level form leaves one window's interval or an unmapped range, and the low bits it
takes are the offset. -/
theorem gateLevelDecoderIsTheDecoder : Obligations.GateLevelDecoderIsTheDecoder := by
  intro a
  have hlt := a.isLt
  unfold decodeAddrGates
  simp only [← BitVec.toNat_inj, BitVec.extractLsb'_toNat, BitVec.toNat_ofNat, Nat.shiftRight_eq_div_pow, ne_eq]
  split_ifs with h15 hvram heram hwram hecho hoam hoamLow hie
  · exact (decodeAddr_of_inNoWindow (by unfold InNoWindow; omega)).symm
  · exact mapped_eq_decodeAddr (w := .vram) ⟨by simp [Window.first]; omega, by simp [Window.last]; omega⟩
      (by simp [Window.first]; omega)
  · exact mapped_eq_decodeAddr (w := .eram) ⟨by simp [Window.first]; omega, by simp [Window.last]; omega⟩
      (by simp [Window.first]; omega)
  · exact mapped_eq_decodeAddr (w := .wram) ⟨by simp [Window.first]; omega, by simp [Window.last]; omega⟩
      (by simp [Window.first]; omega)
  · exact mapped_eq_decodeAddr (w := .echo) ⟨by simp [Window.first]; omega, by simp [Window.last]; omega⟩
      (by simp [Window.first]; omega)
  · exact mapped_eq_decodeAddr (w := .oam) ⟨by simp [Window.first]; omega, by simp [Window.last]; omega⟩
      (by simp [Window.first]; omega)
  · exact (decodeAddr_of_inNoWindow (by unfold InNoWindow; omega)).symm
  · exact mapped_eq_decodeAddr (w := .ie) ⟨by simp [Window.first]; omega, by simp [Window.last]; omega⟩
      (by simp [Window.first]; omega)
  · exact (decodeAddr_of_inNoWindow (by unfold InNoWindow; omega)).symm

/-! ## The outputs `sel` and `off` -/

theorem regionSel_of_holds {w : Window} {a : Addr} (h : w.Holds a) : regionSel a = w.sel := by
  rw [regionSel, decodeAddr_of_holds h, Window.answer]

theorem regionOff_of_holds {w : Window} {a : Addr} (h : w.Holds a) :
    (regionOff a).toNat = a.toNat - w.first.toNat := by
  rw [regionOff, decodeAddr_of_holds h, Window.answer, Window.offset_toNat h]

theorem regionSel_of_inNoWindow {a : Addr} (h : InNoWindow a) : regionSel a = 0b000#3 := by
  rw [regionSel, decodeAddr_of_inNoWindow h]

theorem regionOff_of_inNoWindow {a : Addr} (h : InNoWindow a) : (regionOff a).toNat = 0 := by
  rw [regionOff, decodeAddr_of_inNoWindow h]
  rfl

/-- Settles O13: the outputs range by range; the code 0b111 is no window's and not the guard's. -/
theorem regionSelectOutputs : Obligations.RegionSelectOutputs := by
  intro a
  have hout : ∀ w : Window, w.Holds a → regionSel a = w.sel ∧ (regionOff a).toNat = a.toNat - w.first.toNat :=
    fun w h => ⟨regionSel_of_holds h, regionOff_of_holds h⟩
  refine ⟨fun h => ?_, hout .vram, hout .eram, hout .wram, hout .echo, hout .oam, fun h => ?_, ?_⟩
  · have hun : InNoWindow a := by unfold InNoWindow; omega
    exact ⟨regionSel_of_inNoWindow hun, regionOff_of_inNoWindow hun⟩
  · obtain ⟨hsel, hoff⟩ := hout .ie ⟨h.ge, h.le⟩
    exact ⟨hsel, by rw [hoff, h]; rfl⟩
  · obtain ⟨w, hw, -⟩ | ⟨hun, -⟩ := window_or_unmapped a
    · rw [regionSel_of_holds hw]
      cases w <;> decide
    · rw [regionSel_of_inNoWindow hun]
      decide

/-- The select of a store is 1 on exactly the codes of its windows (`30_encoding.md` R56). -/
theorem storeSelect_sel (st : Store) (w : Window) : storeSelect st w.sel = decide (w.store = st) := by
  cases st <;> cases w <;> decide

/-- No store is selected where `sel` is 0 (`30_encoding.md` R56). -/
theorem storeSelect_unmapped (st : Store) : storeSelect st 0b000#3 = false := by
  cases st <;> decide

/-- The cell of an address inside a window (`20_memory.md` R27). -/
theorem cellOf_of_holds {w : Window} {a : Addr} (h : w.Holds a) :
    cellOf a = some ⟨w.store, BitVec.ofNat 13 (a.toNat - w.first.toNat)⟩ := by
  rw [cellOf, decodeAddr_of_holds h, Window.answer]

theorem cellOf_of_inNoWindow {a : Addr} (h : InNoWindow a) : cellOf a = none :=
  (cellOf_eq_none_iff a).2 h

/-- Settles O14: in a window the select is that of the window's store, whose offset the decoder also gives; elsewhere there
is none. -/
theorem storeSelectsPickTheCellsStore : Obligations.StoreSelectsPickTheCellsStore := by
  intro a st
  obtain ⟨w, hw, -⟩ | ⟨hun, -⟩ := window_or_unmapped a
  · have hoff : regionOff a = BitVec.ofNat 13 (a.toNat - w.first.toNat) :=
      BitVec.eq_of_toNat_eq ((regionOff_of_holds hw).trans (Window.offset_toNat hw).symm)
    simp [regionSel_of_holds hw, storeSelect_sel, cellOf_of_holds hw, hoff]
  · simp [regionSel_of_inNoWindow hun, storeSelect_unmapped, cellOf_of_inNoWindow hun]

/-! ## Counting the mapped addresses -/

/-- The mapped numbers (`20_memory.md` R26). -/
theorem isMapped_ofNat {k : Nat} (hk : k < 65536) :
    isMapped (BitVec.ofNat 16 k) = decide ((0x8000 ≤ k ∧ k < 0xFEA0) ∨ k = 0xFFFF) := by
  have hnum : (BitVec.ofNat 16 k).toNat = k := Nat.mod_eq_of_lt hk
  rw [isMapped, Bool.eq_iff_iff, decide_eq_true_eq, ← Option.ne_none_iff_isSome, ne_eq, cellOf_eq_none_iff, hnum]
  omega

/-- How many numbers below a bound are mapped. -/
theorem count_mapped {n : Nat} (hn : n ≤ 65536) :
    ((List.range n).filter (fun k => isMapped (BitVec.ofNat 16 k))).length
      = (min n 0xFEA0 - 0x8000) + (n - 0xFFFF) := by
  induction n with
  | zero => rfl
  | succ n ih =>
    rw [List.range_succ, List.filter_append, List.length_append, ih (by omega), List.filter_singleton,
      isMapped_ofNat (by omega)]
    by_cases h : (0x8000 ≤ n ∧ n < 0xFEA0) ∨ n = 0xFFFF
    · simp only [h, decide_true, cond_true, List.length_singleton]
      omega
    · simp only [h, decide_false, cond_false, List.length_nil]
      omega

/-- Settles O11: the count below every bound by induction on it, and the unmapped addresses as the rest. -/
theorem mappedAddressesAreCounted : Obligations.MappedAddressesAreCounted := by
  refine fun n hn => ⟨count_mapped hn, fun hall => ?_⟩
  have hmapped := count_mapped hn
  have hsplit := (List.range n).length_eq_length_filter_add (fun k => isMapped (BitVec.ofNat 16 k))
  rw [List.length_range] at hsplit
  omega

/-! ## Addresses and cells -/

/-- Every store has a window over all its bytes. -/
theorem Store.exists_window (st : Store) : ∃ w : Window, w.store = st ∧ w.size = st.size := by
  cases st with
  | vram => exact ⟨.vram, rfl, rfl⟩
  | eram => exact ⟨.eram, rfl, rfl⟩
  | wram => exact ⟨.wram, rfl, rfl⟩
  | oam => exact ⟨.oam, rfl, rfl⟩
  | ie => exact ⟨.ie, rfl, rfl⟩

/-- Every cell of every store is selected by some address (`20_memory.md` R27). -/
theorem exists_cellOf_eq {c : CellRef} (hc : c.off.toNat < c.store.size) : ∃ a, cellOf a = some c := by
  obtain ⟨st, off⟩ := c
  obtain ⟨w, rfl, hsize⟩ := st.exists_window
  have hlast := w.last_toNat
  have hbound := w.last.isLt
  simp only [← hsize] at hc
  have hnum : (BitVec.ofNat 16 (w.first.toNat + off.toNat)).toNat = w.first.toNat + off.toNat :=
    Nat.mod_eq_of_lt (by omega)
  refine ⟨BitVec.ofNat 16 (w.first.toNat + off.toNat), ?_⟩
  rw [cellOf_of_holds (w := w) ⟨by omega, by omega⟩, hnum, Nat.add_sub_cancel_left, BitVec.ofNat_toNat,
    BitVec.setWidth_eq]

/-- Of two addresses of one cell the lower is primary and the higher its echo (`20_memory.md` R27). -/
theorem primary_and_echo_of_same_cell {a d : Addr} {c : CellRef} (ha : cellOf a = some c) (hd : cellOf d = some c)
    (hlt : a.toNat < d.toNat) :
    c.store = .wram ∧ c.off.toNat < 0x1E00 ∧ a.toNat = 0xC000 + c.off.toNat ∧ d.toNat = 0xE000 + c.off.toNat := by
  have hdist := cellOf_eq_imp_distance ha hd hlt
  have hca := cellOf_eq_some ha
  have hcd := cellOf_eq_some hd
  obtain ⟨st, off⟩ := c
  cases st <;> simp only [reduceCtorEq, false_and, true_and, false_or, or_false] at hca hcd ⊢ <;> omega

/-- Settles O12: two addresses of one cell are ordered, the lower primary and the higher echo; every cell has an address in
its store's window. -/
theorem onlyTheEchoReachesACellTwice : Obligations.OnlyTheEchoReachesACellTwice := by
  refine ⟨fun a a' c ha ha' hne => ?_, fun c hc => exists_cellOf_eq hc⟩
  have hnum : a.toNat ≠ a'.toNat := fun h => hne (BitVec.eq_of_toNat_eq h)
  rcases Nat.lt_or_gt_of_ne hnum with hlt | hgt
  · obtain ⟨hst, hoff, hp, he⟩ := primary_and_echo_of_same_cell ha ha' hlt
    exact ⟨hst, hoff, .inl ⟨hp, he⟩⟩
  · obtain ⟨hst, hoff, hp, he⟩ := primary_and_echo_of_same_cell ha' ha hgt
    exact ⟨hst, hoff, .inr ⟨he, hp⟩⟩

/-! ## The bytes determine the block -/

/-- In canonical form an offset below the first entry's reads as the reset byte. -/
theorem Memory.read_below_first {j k : Nat} {w : Byte} {m : Memory} (hm : Memory.wf ((j, w) :: m) = true) (hk : k < j) :
    Memory.read ((j, w) :: m) k = Config.resetByte := by
  obtain ⟨-, hlt, -⟩ := (Memory.wf_cons j w m).1 hm
  refine Memory.read_of_unlisted fun c hc => ?_
  rcases List.mem_cons.1 hc with rfl | hc
  · simp only; omega
  · have := hlt c hc; omega

theorem Memory.read_first (j : Nat) (w : Byte) (m : Memory) : Memory.read ((j, w) :: m) j = w := by
  simp [Memory.read]

theorem Memory.read_rest {j k : Nat} (w : Byte) (m : Memory) (h : j ≠ k) :
    Memory.read ((j, w) :: m) k = Memory.read m k := by
  simp [Memory.read, h]

/-- In canonical form the bytes read determine the list (log 8). -/
theorem Memory.eq_of_read_eq {m m' : Memory} (hm : Memory.wf m = true) (hm' : Memory.wf m' = true)
    (h : ∀ k, Memory.read m k = Memory.read m' k) : m = m' := by
  induction m generalizing m' with
  | nil =>
    cases m' with
    | nil => rfl
    | cons d m' =>
      obtain ⟨j, w⟩ := d
      obtain ⟨-, -, hw⟩ := (Memory.wf_cons j w m').1 hm'
      exact absurd ((Memory.read_first j w m').symm.trans (h j).symm) hw
  | cons c m ih =>
    obtain ⟨i, v⟩ := c
    obtain ⟨hwf, hi, hv⟩ := (Memory.wf_cons i v m).1 hm
    cases m' with
    | nil => exact absurd ((Memory.read_first i v m).symm.trans (h i)) hv
    | cons d m' =>
      obtain ⟨j, w⟩ := d
      obtain ⟨hwf', hj, hw⟩ := (Memory.wf_cons j w m').1 hm'
      have hij : i = j := by
        rcases Nat.lt_trichotomy i j with hlt | heq | hgt
        · exact absurd ((Memory.read_first i v m).symm.trans ((h i).trans (Memory.read_below_first hm' hlt))) hv
        · exact heq
        · exact absurd ((Memory.read_first j w m').symm.trans ((h j).symm.trans (Memory.read_below_first hm hgt))) hw
      subst hij
      have hvw : v = w := by simpa only [Memory.read_first] using h i
      rw [hvw, ih hwf hwf' fun k => ?_]
      by_cases hk : i = k
      · subst hk
        rw [Memory.read_of_unlisted fun c hc => (hi c hc).ne', Memory.read_of_unlisted fun c hc => (hj c hc).ne']
      · rw [← Memory.read_rest v m hk, h k, Memory.read_rest w m' hk]

/-- Two well-formed memories of one store that read alike inside it are the same list. -/
theorem storeWf_eq_of_read_eq {size : Nat} {m m' : Memory} (hm : storeWf size m = true) (hm' : storeWf size m' = true)
    (h : ∀ k < size, Memory.read m k = Memory.read m' k) : m = m' := by
  simp only [storeWf, Memory.inside, Bool.and_eq_true, List.all_eq_true, decide_eq_true_eq] at hm hm'
  obtain ⟨hwf, hin⟩ := hm
  obtain ⟨hwf', hin'⟩ := hm'
  refine Memory.eq_of_read_eq hwf hwf' fun k => ?_
  by_cases hk : k < size
  · exact h k hk
  · rw [Memory.read_of_unlisted fun c hc => by have := hin c hc; omega,
      Memory.read_of_unlisted fun c hc => by have := hin' c hc; omega]

/-- An offset inside a store is the number of its 13 bits (`20_memory.md` R30). -/
theorem Store.toNat_ofNat (st : Store) {k : Nat} (h : k < st.size) : (BitVec.ofNat 13 k).toNat = k := by
  have hsize : st.size ≤ 2 ^ 13 := by cases st <;> decide
  exact Nat.mod_eq_of_lt (by omega)

/-- Two well-formed blocks whose cells hold the same bytes are equal. -/
theorem Block.eq_of_cellByte_eq {b b' : Block} (hb : b.wf = true) (hb' : b'.wf = true)
    (h : ∀ c : CellRef, c.off.toNat < c.store.size → cellByte b c = cellByte b' c) : b = b' := by
  obtain ⟨hvram, heram, hwram, hoam⟩ := (Block.wf_iff b).1 hb
  obtain ⟨hvram', heram', hwram', hoam'⟩ := (Block.wf_iff b').1 hb'
  have hmem : ∀ (st : Store) {m m' : Memory}, storeWf st.size m = true → storeWf st.size m' = true →
      (∀ off : Off, storeRead b st off = Memory.read m off.toNat) →
      (∀ off : Off, storeRead b' st off = Memory.read m' off.toNat) → m = m' := fun st m m' hm hm' hr hr' =>
    storeWf_eq_of_read_eq hm hm' fun k hk => by
      have hnum := st.toNat_ofNat hk
      have hcell : storeRead b st (BitVec.ofNat 13 k) = storeRead b' st (BitVec.ofNat 13 k) :=
        h ⟨st, BitVec.ofNat 13 k⟩ (by rwa [hnum])
      rwa [hr, hr', hnum] at hcell
  have hvram := hmem .vram hvram hvram' (fun _ => rfl) (fun _ => rfl)
  have heram := hmem .eram heram heram' (fun _ => rfl) (fun _ => rfl)
  have hwram := hmem .wram hwram hwram' (fun _ => rfl) (fun _ => rfl)
  have hoam := hmem .oam hoam hoam' (fun _ => rfl) (fun _ => rfl)
  have hie : b.ie = b'.ie := h ⟨.ie, 0#13⟩ (by decide)
  cases b
  cases b'
  simp only at hvram heram hwram hoam hie
  rw [hvram, heram, hwram, hoam, hie]

/-- Settles O16: every cell has an address, so equal answers are equal cells, and equal cells are equal lists. -/
theorem blocksThatReadAlikeAreEqual : Obligations.BlocksThatReadAlikeAreEqual := by
  refine fun b b' hb hb' h => Block.eq_of_cellByte_eq hb hb' fun c hc => ?_
  obtain ⟨a, ha⟩ := exists_cellOf_eq hc
  simpa [byteAt_eq, ha] using h a

end Sys2Proof.Machine
end

section
/-!
PROOFS of the step: what one input does to the block and which responses it gives, said once, and from it the invariant of
every step (log 8), the runs of whole streams (R6, R75), the fault mark (R74), the missing fault latch (R23) and the
system's policy (D7).
-/

namespace Sys2Proof.Machine

/-! ## The response to an instruction -/

/-- The response to a read of n bytes that ended so. -/
def readResponse (n : Nat) : Access Word → Response
  | .ok _ r       => .value (readData n r)
  | .fault _ c fa => .fault c fa

/-- The response to a write that ended so. -/
def writeResponse : Access Unit → Response
  | .ok _ _       => .done
  | .fault _ c fa => .fault c fa

/-- The response to an instruction, which depends on the block alone. -/
def responseOf : Instr → Block → Response
  | .rb a, b          => readResponse 1 (memRead b a 1)
  | .rw a, b          => readResponse 2 (memRead b a 2)
  | .rd a, b          => readResponse 4 (memRead b a 4)
  | .wb a v, b        => writeResponse (memWrite b a 1 (v.setWidth 32))
  | .ww a v, b        => writeResponse (memWrite b a 2 (v.setWidth 32))
  | .wd a v, b        => writeResponse (memWrite b a 4 v)
  | .reserved011 a, _ => .fault .illegalCommand a
  | .reserved111 a, _ => .fault .illegalCommand a

theorem answerWrite_eq (s : State) (o : Access Unit) :
    answerWrite s o = .next ({ s with block := o.after }.respond (writeResponse o)) := by
  cases o <;> rfl

/-- A read leaves the block it finds, whatever it answers. -/
theorem answerRead_memRead (s : State) (a : Addr) (n : Nat) :
    answerRead s n (memRead s.block a n) = .next (s.respond (readResponse n (memRead s.block a n))) := by
  have hafter : (memRead s.block a n).after = s.block := memReadFrom_after s.block a n 0 0#32
  cases hread : memRead s.block a n with
  | ok b r => rw [hread, Access.after_ok] at hafter; subst hafter; rfl
  | fault b c fa => rw [hread, Access.after_fault] at hafter; subst hafter; rfl

/-- Every instruction answers a next state: the block is `blockAfter`, the response `responseOf` (`30_encoding.md` R52;
log 1). -/
theorem exec_eq (i : Instr) (s : State) :
    exec i s = .next ({ s with block := blockAfter i s.block }.respond (responseOf i s.block)) := by
  cases i with
  | rb a => exact answerRead_memRead s a 1
  | rw a => exact answerRead_memRead s a 2
  | rd a => exact answerRead_memRead s a 4
  | wb a v => exact answerWrite_eq s _
  | ww a v => exact answerWrite_eq s _
  | wd a v => exact answerWrite_eq s _
  | reserved011 a => rfl
  | reserved111 a => rfl

/-! ## One input -/

/-- The block after an input. -/
def blockAfterInput : Input → Block → Block
  | .reset, _     => Block.new
  | .request r, b => blockAfter (decode r) b

/-- The responses an input gets: one to a request, none to a reset event (log 5). -/
def responsesTo : Input → Block → List Response
  | .reset, _     => []
  | .request r, b => [responseOf (decode r) b]

/-- With an input waiting, the step's whole next state. -/
theorem step_of_input {s : State} {x : Input} {rest : List Input} (h : s.inputs = x :: rest) :
    step s = .next ⟨blockAfterInput x s.block, rest, s.responses ++ responsesTo x s.block⟩ := by
  cases x with
  | reset =>
    rw [step_of_reset h, responsesTo, List.append_nil]
    rfl
  | request r =>
    rw [step_of_request h, exec_eq]
    rfl

/-- A step that answers a next state took the oldest input. -/
theorem exists_input_of_step {s t : State} (h : step s = .next t) :
    ∃ x rest, s.inputs = x :: rest ∧
      t = ⟨blockAfterInput x s.block, rest, s.responses ++ responsesTo x s.block⟩ := by
  cases hin : s.inputs with
  | nil => rw [step_of_no_input hin] at h; cases h
  | cons x rest => exact ⟨x, rest, rfl, (Host.Outcome.next.inj ((step_of_input hin).symm.trans h)).symm⟩

/-- Construction leaves empty lists, which are canonical. -/
theorem Block.new_wf : Block.new.wf = true := by decide

/-- An input keeps the invariant of the block. -/
theorem blockAfterInput_wf {b : Block} (hb : b.wf = true) (x : Input) : (blockAfterInput x b).wf = true := by
  cases x with
  | reset => exact Block.new_wf
  | request r => exact blockAfter_wf hb (decode r)

/-- Settles O50: the step takes one input, and every input keeps the block's invariant. -/
theorem everyStepKeepsTheInvariant : Obligations.EveryStepKeepsTheInvariant := by
  intro s t hs h
  obtain ⟨x, rest, -, rfl⟩ := exists_input_of_step h
  exact blockAfterInput_wf hs x

/-- Settles O49: the machine after reset holds the block construction leaves. -/
theorem resetMeetsTheInvariant : Obligations.ResetMeetsTheInvariant :=
  Block.new_wf

/-- Settles O18: the reset state field by field, and the step on a reset event. -/
theorem resetInputIsConstruction : Obligations.ResetInputIsConstruction :=
  ⟨rfl, fun _ _ h => step_of_reset h⟩

/-- Settles O47: the step on a request and on an empty stream. -/
theorem stepPerformsTheDecodedRequest : Obligations.StepPerformsTheDecodedRequest :=
  fun _ => ⟨fun _ _ _ hin hdec => hdec ▸ step_of_request hin, step_of_no_input⟩

/-- A table word that decodes is a request of that instruction. -/
theorem requestOfNat_of_decodeTableWord {nbits w : Nat} {i : Instr} (h : decodeTableWord nbits w = some i) :
    ∃ r, requestOfNat (w % 2 ^ nbits) = .ok r ∧ decode r = i := by
  unfold decodeTableWord at h
  split at h
  case isFalse => cases h
  case isTrue hlt =>
    rw [decodeBytes_bytesOfNat hlt] at h
    cases hreq : requestOfNat (w % 2 ^ nbits) with
    | error e => simp [hreq, Except.map] at h
    | ok r => exact ⟨r, rfl, by simpa [hreq, Except.map] using h⟩

/-- Settles O48: the word places its request in front of the stream, where the step takes it. -/
theorem aPlacedWordIsPerformedNext : Obligations.APlacedWordIsPerformedNext := by
  intro s nbits w i h
  obtain ⟨r, hreq, rfl⟩ := requestOfNat_of_decodeTableWord h
  have hplace : s.withFetchWord nbits w = placeRequest s r := by rw [State.withFetchWord, hreq]
  rw [hplace, step_of_request (placeRequest_inputs s r)]
  rfl

/-! ## Runs -/

/-- Settles O42: the step takes whatever input is waiting. -/
theorem theNextRequestIsAlwaysAccepted : Obligations.TheNextRequestIsAlwaysAccepted :=
  fun _ _ _ hin => ⟨_, step_of_input hin, rfl⟩

theorem runSteps_succ_of_step {n : Nat} {s t : State} (h : step s = .next t) : runSteps (n + 1) s = runSteps n t := by
  rw [runSteps, h]

/-- A run that answers a next state began with a step that does. -/
theorem exists_step_of_runSteps_succ {n : Nat} {s t : State} (h : runSteps (n + 1) s = .next t) :
    ∃ u, step s = .next u ∧ runSteps n u = .next t := by
  cases hstep : step s with
  | next u => exact ⟨u, rfl, by rwa [runSteps_succ_of_step hstep] at h⟩
  | fault r => rw [runSteps, hstep] at h; cases h
  | refused r => rw [runSteps, hstep] at h; cases h

theorem length_responsesTo (x : Input) (b : Block) (rest : List Input) :
    (responsesTo x b).length + requestCount rest = requestCount (x :: rest) := by
  cases x with
  | reset => exact Nat.zero_add _
  | request r => exact Nat.add_comm _ _

/-- Settles O43: by induction on the stream, one step an input. -/
theorem everyStreamRunsToItsEnd : Obligations.EveryStreamRunsToItsEnd := by
  intro s
  obtain ⟨b, ins, before⟩ := s
  induction ins generalizing b before with
  | nil => exact ⟨_, [], rfl, rfl, (List.append_nil before).symm, rfl⟩
  | cons x rest ih =>
    obtain ⟨t, rs, hrun, hin, hresp, hlen⟩ := ih (blockAfterInput x b) (before ++ responsesTo x b)
    refine ⟨t, responsesTo x b ++ rs, ?_, hin, ?_, ?_⟩
    · exact (runSteps_succ_of_step (step_of_input rfl)).trans hrun
    · rw [hresp, List.append_assoc]
    · rw [List.length_append, hlen, length_responsesTo]

/-- A run only adds responses (`60_exceptions.md` R74). -/
theorem runSteps_responses {n : Nat} {s t : State} (h : runSteps n s = .next t) :
    ∃ rs, t.responses = s.responses ++ rs := by
  induction n generalizing s with
  | zero => exact ⟨[], by rw [← Host.Outcome.next.inj h, List.append_nil]⟩
  | succ n ih =>
    obtain ⟨u, hstep, hrun⟩ := exists_step_of_runSteps_succ h
    obtain ⟨x, rest, -, rfl⟩ := exists_input_of_step hstep
    obtain ⟨rs, hrs⟩ := ih hrun
    exact ⟨_, by rw [hrs, List.append_assoc]⟩

/-- Settles O44: a run only adds responses, and the fault mark is a mark on the list of them. -/
theorem theFaultMarkIsNeverCleared : Obligations.TheFaultMarkIsNeverCleared := by
  intro n s t h
  obtain ⟨rs, hrs⟩ := runSteps_responses h
  have hmark : t.faulted = true ↔ s.faulted = true ∨ ∃ r ∈ rs, r.isFault = true := by
    simp only [State.faulted, hrs, List.any_append, Bool.or_eq_true, List.any_eq_true (l := rs)]
  refine ⟨⟨rs, hrs, hmark⟩, fun hs => ?_⟩
  simp [State.goodFinal, hmark.2 (.inl hs)]

/-- Settles O45: the next state's block and the added responses are functions of the input and the block. -/
theorem pastResponsesDoNotInfluenceAStep : Obligations.PastResponsesDoNotInfluenceAStep := by
  intro s s' t hblock hin h
  obtain ⟨x, rest, hx, rfl⟩ := exists_input_of_step h
  exact ⟨_, responsesTo x s.block, step_of_input (hin ▸ hx), by rw [hblock], rfl, rfl, by rw [hblock]⟩

/-! ## The system's policy -/

/-- Where no response reports OutOfBounds the search goes on behind them. -/
theorem firstOutOfBounds_append {rs : List Response} (qs : List Response) (h : firstOutOfBounds rs = none) :
    firstOutOfBounds (rs ++ qs) = firstOutOfBounds qs := by
  induction rs with
  | nil => rfl
  | cons r rs ih =>
    cases r with
    | value v => exact ih h
    | done => exact ih h
    | fault c fa =>
      cases c with
      | illegalCommand => exact ih h
      | outOfBounds => cases h

theorem firstOutOfBounds_singleton {r : Response} {fa : Addr} (h : firstOutOfBounds [r] = some fa) :
    r = .fault .outOfBounds fa := by
  cases r with
  | value v => cases h
  | done => cases h
  | fault c fa' =>
    cases c with
    | illegalCommand => cases h
    | outOfBounds => rw [Option.some.inj h]

/-- The OutOfBounds fault an input's responses report is the only one of them. -/
theorem responsesTo_of_firstOutOfBounds {x : Input} {b : Block} {fa : Addr}
    (h : firstOutOfBounds (responsesTo x b) = some fa) : responsesTo x b = [.fault .outOfBounds fa] := by
  cases x with
  | reset => cases h
  | request r => exact congrArg (fun r => [r]) (firstOutOfBounds_singleton h)

theorem systemStep_of_none {s : State} (h : firstOutOfBounds s.responses = none) (p : Config.OobPolicy) :
    systemStep p s = step s := by
  simp only [systemStep, h]

/-- Settles O46: the search for an OutOfBounds response passes over the responses before the step and finds the step's own,
if it is one. -/
theorem haltPolicyStopsAtTheFirstOutOfBounds : Obligations.HaltPolicyStopsAtTheFirstOutOfBounds := by
  intro s t hs h
  refine ⟨fun p => (systemStep_of_none hs p).trans h, fun fa hfa => ?_, fun hno p => systemStep_of_none ?_ p⟩
  · have hfirst : firstOutOfBounds t.responses = some fa := by rw [hfa, firstOutOfBounds_append _ hs]; rfl
    simp only [systemStep, hfirst]
  · obtain ⟨x, rest, -, rfl⟩ := exists_input_of_step h
    rw [firstOutOfBounds_append _ hs]
    refine Option.eq_none_iff_forall_ne_some.2 fun fa hfa => hno fa ?_
    rw [responsesTo_of_firstOutOfBounds hfa]

end Sys2Proof.Machine
end

section
/-!
PROOFS of the access sequences: the first unmapped byte of an access, what `MemRead` and `MemWrite` answer with every byte
mapped and with one unmapped (R39, R40), and that they equal the sequences of byte operations the rules spell out (R65-R68).
-/

namespace Sys2Proof.Machine

/-! ## The first unmapped byte of an access -/

/-- Byte m of an access of n bytes is unmapped, and the bytes before it are mapped. -/
def FirstUnmapped (a : Addr) (n m : Nat) : Prop :=
  m < n ∧ (∀ k < m, isMapped (byteAddr a k) = true) ∧ isMapped (byteAddr a m) = false

theorem isMapped_iff (a : Addr) : isMapped a = true ↔ ∃ c, cellOf a = some c :=
  Option.isSome_iff_exists

theorem isMapped_eq_false_iff (a : Addr) : isMapped a = false ↔ cellOf a = none := by
  rw [isMapped, Option.isSome_eq_false_iff, Option.isNone_iff_eq_none]

/-- Every byte of an access is mapped, or one is the first unmapped byte. -/
theorem all_mapped_or_firstUnmapped (a : Addr) (n : Nat) :
    (∀ k < n, isMapped (byteAddr a k) = true) ∨ ∃ m, FirstUnmapped a n m := by
  induction n with
  | zero => exact .inl fun k hk => absurd hk (Nat.not_lt_zero k)
  | succ n ih =>
    rcases ih with hall | ⟨m, hm, hbefore, hun⟩
    · cases hn : isMapped (byteAddr a n) with
      | true => exact .inl fun k hk => (Nat.lt_succ_iff_lt_or_eq.1 hk).elim (hall k) (fun h => h ▸ hn)
      | false => exact .inr ⟨n, Nat.lt_succ_self n, hall, hn⟩
    · exact .inr ⟨m, Nat.lt_succ_of_lt hm, hbefore, hun⟩

/-- An access of more than no byte at an unmapped address stops at byte 0. -/
theorem firstUnmapped_zero {a : Addr} {n : Nat} (hn : 0 < n) (h : isMapped a = false) : FirstUnmapped a n 0 :=
  ⟨hn, fun k hk => absurd hk (Nat.not_lt_zero k), by rwa [byteAddr_zero]⟩

/-- Two mapped bytes of an access lie in different cells: cells reached twice are 0x2000 addresses apart. -/
theorem cellOf_byteAddr_ne_of_mapped {a : Addr} {j l : Nat} (hj : isMapped (byteAddr a j) = true) (hjl : j < l)
    (hl : l < 4) : cellOf (byteAddr a l) ≠ cellOf (byteAddr a j) := by
  intro h
  obtain ⟨c, hc⟩ := (isMapped_iff _).1 hj
  have hjnum := byteAddr_toNat a j
  have hlnum := byteAddr_toNat a l
  rcases Nat.lt_trichotomy (byteAddr a j).toNat (byteAddr a l).toNat with hlt | heq | hgt
  · have := cellOf_eq_imp_distance hc (h.trans hc) hlt
    omega
  · omega
  · have := cellOf_eq_imp_distance (h.trans hc) hc hgt
    omega

/-! ## `MemWrite` -/

/-- A write sequence of mapped bytes and then an unmapped one is the shorter sequence, ended by the fault
(`20_memory.md` R40). -/
theorem memWriteFrom_stops {a : Addr} {l k i : Nat} (b : Block) (v : Word)
    (hmapped : ∀ j, i ≤ j → j < i + l → isMapped (byteAddr a j) = true) (hun : isMapped (byteAddr a (i + l)) = false) :
    memWriteFrom b a v (l + (k + 1)) i
      = .fault (memWriteFrom b a v l i).after .outOfBounds (byteAddr a (i + l)) := by
  induction l generalizing b i with
  | zero =>
    have hnone := (isMapped_eq_false_iff _).1 hun
    simp only [Nat.add_zero, memWriteFrom] at hnone ⊢
    rw [byteWrite_of_unmapped b _ hnone]
    rfl
  | succ l ih =>
    obtain ⟨c, hc⟩ := (isMapped_iff _).1 (hmapped i le_rfl (by omega))
    have hshift : i + (l + 1) = i + 1 + l := by omega
    rw [hshift] at hun hmapped ⊢
    rw [show l + 1 + (k + 1) = l + (k + 1) + 1 by omega]
    simp only [memWriteFrom, byteWrite_of_cell b _ hc]
    exact ih _ (fun j hj hjl => hmapped j (by omega) hjl) hun

theorem memWrite_of_firstUnmapped {a : Addr} {n m : Nat} (b : Block) (v : Word) (h : FirstUnmapped a n m) :
    memWrite b a n v = .fault (memWrite b a m v).after .outOfBounds (byteAddr a m) := by
  obtain ⟨hm, hbefore, hun⟩ := h
  obtain ⟨k, rfl⟩ := Nat.exists_eq_add_of_lt hm
  rw [memWrite, Nat.add_assoc, memWriteFrom_stops b v (fun j _ hj => hbefore j (by omega)) (by rwa [Nat.zero_add]),
    Nat.zero_add, memWrite]

/-- With every byte mapped `MemWrite` completes, and each address holds its lane of the value (`20_memory.md` R40). -/
theorem memWrite_of_mapped {a : Addr} {n : Nat} {b : Block} (hb : b.wf = true) (v : Word) (hn : n ≤ 4)
    (hmapped : ∀ k < n, isMapped (byteAddr a k) = true) :
    memWrite b a n v = .ok (memWrite b a n v).after () ∧
      ∀ k < n, byteAt (memWrite b a n v).after (byteAddr a k) = some (lane v k) := by
  have hcells : ∀ j, 0 ≤ j → j < 0 + n → ∃ c, cellOf (byteAddr a j) = some c := fun j _ hj =>
    (isMapped_iff _).1 (hmapped j (by omega))
  refine ⟨memWriteFrom_completes b v hcells, fun k hk => ?_⟩
  exact byteAt_memWriteFrom_same hb v hcells
    (fun j l _ hjl hl => cellOf_byteAddr_ne_of_mapped (hmapped j (by omega)) hjl (by omega)) (Nat.zero_le k) (by omega)

/-- Settles O27: a write of mapped bytes leaves its lanes, its frame is that of the sequence, and one that meets an unmapped
byte is the shorter write, ended by the fault. -/
theorem memWriteStopsAtTheFirstUnmappedByte : Obligations.MemWriteStopsAtTheFirstUnmappedByte := by
  intro b a n v hb hmem
  have hn : n ≤ 4 := by simp only [List.mem_cons, List.not_mem_nil, or_false] at hmem; omega
  refine ⟨fun hall => ?_, fun m hm hbefore hun => ?_⟩
  · obtain ⟨hok, hlanes⟩ := memWrite_of_mapped hb v hn hall
    exact ⟨_, hok, hlanes, fun d hd => byteAt_memWrite_other b v hd⟩
  · obtain ⟨-, hlanes⟩ := memWrite_of_mapped hb v (by omega) hbefore
    exact ⟨_, memWrite_of_firstUnmapped b v ⟨hm, hbefore, hun⟩, hlanes, fun d hd => byteAt_memWrite_other b v hd⟩

/-! ## `MemRead` -/

/-- A read sequence that meets an unmapped byte faults there, whatever it read before (`20_memory.md` R39). -/
theorem memReadFrom_stops {a : Addr} {l k i : Nat} (b : Block) (r : Word)
    (hmapped : ∀ j, i ≤ j → j < i + l → isMapped (byteAddr a j) = true) (hun : isMapped (byteAddr a (i + l)) = false) :
    memReadFrom b a (l + (k + 1)) i r = .fault b .outOfBounds (byteAddr a (i + l)) := by
  induction l generalizing i r with
  | zero =>
    have hnone := (isMapped_eq_false_iff _).1 hun
    simp only [Nat.add_zero, memReadFrom] at hnone ⊢
    rw [byteRead_of_unmapped b hnone]
  | succ l ih =>
    obtain ⟨c, hc⟩ := (isMapped_iff _).1 (hmapped i le_rfl (by omega))
    have hshift : i + (l + 1) = i + 1 + l := by omega
    rw [hshift] at hun hmapped ⊢
    rw [show l + 1 + (k + 1) = l + (k + 1) + 1 by omega]
    simp only [memReadFrom, byteRead_of_cell b hc]
    exact ih _ (fun j hj hjl => hmapped j (by omega) hjl) hun

theorem memRead_of_firstUnmapped {a : Addr} {n m : Nat} (b : Block) (h : FirstUnmapped a n m) :
    memRead b a n = .fault b .outOfBounds (byteAddr a m) := by
  obtain ⟨hm, hbefore, hun⟩ := h
  obtain ⟨k, rfl⟩ := Nat.exists_eq_add_of_lt hm
  rw [memRead, Nat.add_assoc, memReadFrom_stops b _ (fun j _ hj => hbefore j (by omega)) (by rwa [Nat.zero_add]),
    Nat.zero_add]

theorem lane_or (x y : Word) (k : Nat) : lane (x ||| y) k = lane x k ||| lane y k :=
  BitVec.extractLsb'_or

theorem lane_atLane_same (v : Byte) {i : Nat} (hi : i < 4) : lane (atLane v i) i = v := by
  ext j hj
  have hin : 8 * i + j < 32 := by omega
  simp [lane, atLane, hin, hj]

theorem lane_atLane_of_lt (v : Byte) {i j : Nat} (h : j < i) : lane (atLane v i) j = 0#8 := by
  ext l hl
  have hbelow : 8 * j + l < 8 * i := by omega
  simp [lane, atLane, hbelow]

/-- A value below byte i has nothing in lane i. -/
theorem lane_eq_zero {x : Word} {i : Nat} (h : x.toNat < 2 ^ (8 * i)) : lane x i = 0#8 := by
  refine BitVec.eq_of_toNat_eq ?_
  simp [lane, Nat.shiftRight_eq_div_pow, Nat.div_eq_of_lt h]

theorem atLane_toNat_lt (v : Byte) {i : Nat} : (atLane v i).toNat < 2 ^ (8 * (i + 1)) := by
  have hv : (v.setWidth 32).toNat < 2 ^ 8 := by
    rw [BitVec.toNat_setWidth]
    exact (Nat.mod_le _ _).trans_lt v.isLt
  rw [atLane, BitVec.toNat_shiftLeft, Nat.shiftLeft_eq]
  refine (Nat.mod_le _ _).trans_lt ?_
  calc (v.setWidth 32).toNat * 2 ^ (8 * i) < 2 ^ 8 * 2 ^ (8 * i) := Nat.mul_lt_mul_of_pos_right hv (Nat.two_pow_pos _)
    _ = 2 ^ (8 * (i + 1)) := by rw [← Nat.pow_add, Nat.mul_succ, Nat.add_comm]

/-- A read sequence of mapped bytes completes: below byte i its value keeps the bytes read before, from byte i on each lane
is the byte at its address, and nothing is set above them (`20_memory.md` R39). -/
theorem memReadFrom_completes {a : Addr} {k i : Nat} (b : Block) {r : Word} (hk : i + k ≤ 4)
    (hr : r.toNat < 2 ^ (8 * i)) (hmapped : ∀ j, i ≤ j → j < i + k → isMapped (byteAddr a j) = true) :
    ∃ x, memReadFrom b a k i r = .ok b x ∧ x.toNat < 2 ^ (8 * (i + k)) ∧ (∀ j < i, lane x j = lane r j) ∧
      ∀ j, i ≤ j → j < i + k → byteAt b (byteAddr a j) = some (lane x j) := by
  induction k generalizing i r with
  | zero => exact ⟨r, rfl, hr, fun j _ => rfl, fun j hj hjk => absurd hjk (by omega)⟩
  | succ k ih =>
    obtain ⟨c, hc⟩ := (isMapped_iff _).1 (hmapped i le_rfl (by omega))
    have hnext : (r ||| atLane (cellByte b c) i).toNat < 2 ^ (8 * (i + 1)) := by
      rw [BitVec.toNat_or]
      exact Nat.or_lt_two_pow (hr.trans_le (Nat.pow_le_pow_right (by decide) (by omega))) (atLane_toNat_lt _)
    obtain ⟨x, hread, hx, hbelow, hlanes⟩ := ih (by omega) hnext fun j hj hjk => hmapped j (by omega) (by omega)
    refine ⟨x, ?_, ?_, fun j hj => ?_, fun j hj hjk => ?_⟩
    · simp only [memReadFrom, byteRead_of_cell b hc]
      exact hread
    · rwa [show i + (k + 1) = i + 1 + k by omega]
    · rw [hbelow j (by omega), lane_or, lane_atLane_of_lt _ hj, BitVec.or_zero]
    · rcases Nat.eq_or_lt_of_le hj with rfl | hlt
      · rw [hbelow i (by omega), lane_or, lane_eq_zero hr, BitVec.zero_or, lane_atLane_same _ (by omega), byteAt_eq, hc]
        rfl
      · exact hlanes j hlt (by omega)

/-- With every byte mapped `MemRead` gives the value whose lanes are the bytes at the addresses. -/
theorem memRead_of_mapped {a : Addr} {n : Nat} (b : Block) (hn : n ≤ 4)
    (hmapped : ∀ k < n, isMapped (byteAddr a k) = true) :
    ∃ x, memRead b a n = .ok b x ∧ x.toNat < 2 ^ (8 * n) ∧ ∀ k < n, byteAt b (byteAddr a k) = some (lane x k) := by
  obtain ⟨x, hread, hx, -, hlanes⟩ :=
    memReadFrom_completes (k := n) (i := 0) (r := 0#32) b (by omega) (by simp) fun j _ hj => hmapped j (by omega)
  exact ⟨x, hread, by rwa [Nat.zero_add] at hx, fun k hk => hlanes k (Nat.zero_le k) (by omega)⟩

/-- Settles O26: a read of mapped bytes has their lanes, and one that meets an unmapped byte faults there. -/
theorem memReadReadsBytesInOrder : Obligations.MemReadReadsBytesInOrder := by
  intro b a n hmem
  have hn : n ≤ 4 := by simp only [List.mem_cons, List.not_mem_nil, or_false] at hmem; omega
  exact ⟨memRead_of_mapped b hn, fun m hm hbefore hun => memRead_of_firstUnmapped b ⟨hm, hbefore, hun⟩⟩

/-! ## The sequences the rules spell out -/

theorem byteAddr_byteAddr (a : Addr) (i j : Nat) : byteAddr (byteAddr a i) j = byteAddr a (i + j) := by
  simp only [byteAddr, BitVec.add_assoc, BitVec.ofNat_add]

/-- write_word's two byte writes are `MemWrite(addr, 2, value)` (`41_multibyte_access.md` R66). -/
theorem writeWordByBytes_eq (b : Block) (a : Addr) (x : Half) :
    writeWordByBytes b a x = memWrite b a 2 (x.setWidth 32) := by
  have h0 : lane (x.setWidth 32) 0 = x.extractLsb' 0 8 := lane_setWidth x (by omega)
  have h1 : lane (x.setWidth 32) 1 = x.extractLsb' 8 8 := lane_setWidth x (by omega)
  simp only [writeWordByBytes, memWrite, memWriteFrom, byteAddr_zero, h0, h1]
  cases byteWrite b a (x.extractLsb' 0 8) with
  | fault b1 c fa => rfl
  | ok b1 u =>
    simp only
    cases byteWrite b1 (byteAddr a 1) (x.extractLsb' 8 8) <;> rfl

/-- A write sequence is its first part and, if that completes, the rest on the block it leaves (`20_memory.md` R40). -/
theorem memWriteFrom_add_of_ok {a : Addr} {v : Word} {k l i : Nat} {b b' : Block}
    (h : memWriteFrom b a v k i = .ok b' ()) : memWriteFrom b a v (k + l) i = memWriteFrom b' a v l (i + k) := by
  induction k generalizing b i with
  | zero => simp only [memWriteFrom] at h; cases h; rw [Nat.zero_add]; rfl
  | succ k ih =>
    rw [show k + 1 + l = k + l + 1 by omega, show i + (k + 1) = i + 1 + k by omega]
    simp only [memWriteFrom] at h ⊢
    cases hw : byteWrite b (byteAddr a i) (lane v i) with
    | fault b1 c fa => rw [hw] at h; cases h
    | ok b1 u => rw [hw] at h; exact ih h

theorem memWriteFrom_add_of_fault {a fa : Addr} {v : Word} {k l i : Nat} {b b' : Block} {c : Cause}
    (h : memWriteFrom b a v k i = .fault b' c fa) : memWriteFrom b a v (k + l) i = .fault b' c fa := by
  induction k generalizing b i with
  | zero => cases h
  | succ k ih =>
    rw [show k + 1 + l = k + l + 1 by omega]
    simp only [memWriteFrom] at h ⊢
    cases hw : byteWrite b (byteAddr a i) (lane v i) with
    | fault b1 c1 fa1 => rw [hw] at h; exact h
    | ok b1 u => rw [hw] at h; exact ih h

/-- A write sequence depends on the lanes and addresses it uses only. -/
theorem memWriteFrom_congr {a a' : Addr} {v v' : Word} {k i i' : Nat} (b : Block)
    (haddr : ∀ j < k, byteAddr a (i + j) = byteAddr a' (i' + j)) (hlane : ∀ j < k, lane v (i + j) = lane v' (i' + j)) :
    memWriteFrom b a v k i = memWriteFrom b a' v' k i' := by
  induction k generalizing b i i' with
  | zero => rfl
  | succ k ih =>
    have ha0 : byteAddr a i = byteAddr a' i' := haddr 0 (by omega)
    have hl0 : lane v i = lane v' i' := hlane 0 (by omega)
    simp only [memWriteFrom, ha0, hl0]
    cases byteWrite b (byteAddr a' i') (lane v' i') with
    | fault b1 c fa => rfl
    | ok b1 u =>
      exact ih b1 (fun j hj => by simpa only [Nat.add_assoc, Nat.add_comm 1] using haddr (j + 1) (by omega))
        (fun j hj => by simpa only [Nat.add_assoc, Nat.add_comm 1] using hlane (j + 1) (by omega))

/-- The 16 bits of a value from byte i on, widened, have the value's lanes i and i + 1. -/
theorem lane_half (v : Word) {i j : Nat} (hj : j < 2) :
    lane ((v.extractLsb' (8 * i) 16).setWidth 32) j = lane v (i + j) := by
  ext l hl
  have hin : 8 * j + l < 32 := by omega
  have hin' : 8 * j + l < 16 := by omega
  simp [lane, hin, hin', Nat.mul_add, Nat.add_assoc]

/-- write_dword's four byte writes are `MemWrite(addr, 4, value)` (`41_multibyte_access.md` R68). -/
theorem writeDwordByBytes_eq (b : Block) (a : Addr) (v : Word) : writeDwordByBytes b a v = memWrite b a 4 v := by
  have hlow : ∀ b, writeWordByBytes b a (v.extractLsb' 0 16) = memWriteFrom b a v 2 0 := fun b =>
    (writeWordByBytes_eq b a _).trans (memWriteFrom_congr b (fun _ _ => rfl) fun j hj => by
      simpa using lane_half v (i := 0) hj)
  have hhigh : ∀ b, writeWordByBytes b (byteAddr a 2) (v.extractLsb' 16 16) = memWriteFrom b a v 2 2 := fun b =>
    (writeWordByBytes_eq b _ _).trans (memWriteFrom_congr b
      (fun j hj => by rw [byteAddr_byteAddr, Nat.zero_add]) fun j hj => by simpa using lane_half v (i := 2) hj)
  rw [writeDwordByBytes, hlow]
  cases hw : memWriteFrom b a v 2 0 with
  | fault b1 c fa => exact (memWriteFrom_add_of_fault (l := 2) hw).symm
  | ok b1 u => exact (hhigh b1).trans (memWriteFrom_add_of_ok (l := 2) hw).symm

/-- Settles O29: each spelled-out sequence is the loop of `MemWrite`, half by half. -/
theorem writeSequencesEqualMemWrite : Obligations.WriteSequencesEqualMemWrite :=
  fun b a x v => ⟨writeWordByBytes_eq b a x, writeDwordByBytes_eq b a v⟩

/-! ## Values as numbers of their bytes -/

theorem append_toNat {n m : Nat} (x : BitVec n) (y : BitVec m) : (x ++ y).toNat = x.toNat * 2 ^ m + y.toNat := by
  rw [BitVec.toNat_append, ← Nat.shiftLeft_add_eq_or_of_lt y.isLt, Nat.shiftLeft_eq]

theorem lane_toNat (x : Word) (k : Nat) : (lane x k).toNat = x.toNat / 2 ^ (8 * k) % 2 ^ 8 := by
  rw [lane, BitVec.extractLsb'_toNat, Nat.shiftRight_eq_div_pow]

/-- A value of two bytes is its lane 1 over its lane 0, zero-extended (`20_memory.md` R37). -/
theorem eq_two_lanes {x : Word} (h : x.toNat < 2 ^ 16) : x = (lane x 1 ++ lane x 0).setWidth 32 := by
  have h0 := lane_toNat x 0
  have h1 := lane_toNat x 1
  refine BitVec.eq_of_toNat_eq ?_
  rw [BitVec.toNat_setWidth, append_toNat]
  omega

/-- A value is its four lanes, the highest on top (`20_memory.md` R37). -/
theorem eq_four_lanes (x : Word) : x = lane x 3 ++ lane x 2 ++ lane x 1 ++ lane x 0 := by
  have hx := x.isLt
  have h0 := lane_toNat x 0
  have h1 := lane_toNat x 1
  have h2 := lane_toNat x 2
  have h3 := lane_toNat x 3
  refine BitVec.eq_of_toNat_eq ?_
  rw [append_toNat, append_toNat, append_toNat]
  omega

/-- Four bytes on top of each other are two words on top of each other (`41_multibyte_access.md` R67). -/
theorem append_four (b3 b2 b1 b0 : Byte) : ((b3 ++ b2) ++ (b1 ++ b0) : Word) = b3 ++ b2 ++ b1 ++ b0 := by
  refine BitVec.eq_of_toNat_eq ?_
  simp only [append_toNat]
  omega

/-! ## The spelled-out reads -/

/-- Two mapped bytes are read as the second over the first (`41_multibyte_access.md` R65). -/
theorem readWordByBytes_of_byteAt {b : Block} {a : Addr} {lo hi : Byte} (hlo : byteAt b a = some lo)
    (hhi : byteAt b (byteAddr a 1) = some hi) : readWordByBytes b a = .ok b (hi ++ lo) := by
  simp only [readWordByBytes, byteRead_of_byteAt hlo, byteRead_of_byteAt hhi]

/-- The sequence of two byte reads faults where `MemRead` does. -/
theorem readWordByBytes_of_firstUnmapped {a : Addr} {m : Nat} (b : Block) (h : FirstUnmapped a 2 m) :
    readWordByBytes b a = .fault b .outOfBounds (byteAddr a m) := by
  obtain ⟨hm, hbefore, hun⟩ := h
  have hnone := (isMapped_eq_false_iff _).1 hun
  obtain rfl | rfl : m = 0 ∨ m = 1 := by omega
  · rw [byteAddr_zero] at hnone ⊢
    simp only [readWordByBytes, byteRead_of_unmapped b hnone]
  · obtain ⟨c, hc⟩ := (isMapped_iff _).1 (hbefore 0 (by omega))
    rw [byteAddr_zero] at hc
    simp only [readWordByBytes, byteRead_of_cell b hc, byteRead_of_unmapped b hnone]

/-- The sequence of four byte reads, first word and second word, equals `MemRead(addr, 4)` on every path
(`41_multibyte_access.md` R67). -/
theorem readDwordByBytes_eq (b : Block) (a : Addr) : readDwordByBytes b a = memRead b a 4 := by
  rcases all_mapped_or_firstUnmapped a 4 with hall | ⟨m, hm, hbefore, hun⟩
  · obtain ⟨x, hread, -, hlanes⟩ := memRead_of_mapped b le_rfl hall
    have hlow := readWordByBytes_of_byteAt (by simpa using hlanes 0 (by omega)) (hlanes 1 (by omega))
    have hhigh := readWordByBytes_of_byteAt (a := byteAddr a 2) (hlanes 2 (by omega))
      (by rw [byteAddr_byteAddr]; exact hlanes 3 (by omega))
    rw [hread, readDwordByBytes, hlow]
    simp only [hhigh]
    rw [append_four, ← eq_four_lanes]
  · rw [memRead_of_firstUnmapped b ⟨hm, hbefore, hun⟩]
    by_cases hm2 : m < 2
    · rw [readDwordByBytes, readWordByBytes_of_firstUnmapped b ⟨hm2, hbefore, hun⟩]
    · obtain ⟨l, rfl⟩ := Nat.exists_eq_add_of_le (Nat.le_of_not_lt hm2)
      obtain ⟨x, -, -, hlanes⟩ := memRead_of_mapped b (n := 2) (by omega) fun k hk => hbefore k (by omega)
      have hlow := readWordByBytes_of_byteAt (by simpa using hlanes 0 (by omega)) (hlanes 1 (by omega))
      have hhigh : FirstUnmapped (byteAddr a 2) 2 l :=
        ⟨by omega, fun k hk => by rw [byteAddr_byteAddr]; exact hbefore _ (by omega), by rwa [byteAddr_byteAddr]⟩
      rw [readDwordByBytes, hlow]
      simp only [readWordByBytes_of_firstUnmapped b hhigh, byteAddr_byteAddr]

/-- Settles O28: each spelled-out read is `MemRead` with every byte mapped, and stops where it does. -/
theorem readSequencesEqualMemRead : Obligations.ReadSequencesEqualMemRead := by
  intro b a
  rcases all_mapped_or_firstUnmapped a 2 with hall | ⟨m, hm⟩
  · obtain ⟨x, hread, hx, hlanes⟩ := memRead_of_mapped b (by omega) hall
    have hword := readWordByBytes_of_byteAt (by simpa using hlanes 0 (by omega)) (hlanes 1 (by omega))
    refine ⟨fun b' y h => ?_, fun b' c fa h => ?_, readDwordByBytes_eq b a⟩
    · obtain ⟨rfl, rfl⟩ := Access.ok.inj (hword.symm.trans h)
      rw [hread, ← eq_two_lanes hx]
    · rw [hword] at h
      cases h
  · have hword := readWordByBytes_of_firstUnmapped b hm
    refine ⟨fun b' y h => ?_, fun b' c fa h => ?_, readDwordByBytes_eq b a⟩
    · rw [hword] at h
      cases h
    · obtain ⟨rfl, rfl, rfl⟩ := Access.fault.inj (hword.symm.trans h)
      exact memRead_of_firstUnmapped b hm

end Sys2Proof.Machine
end

section
/-!
PROOFS of the operations: the response and the block of every instruction at every address, from the access sequences
(R62-R68), what a write leaves for later reads (E1, E4, E5), the echo window's tail (R34) and the faults (R69-R73).
-/

namespace Sys2Proof.Machine

/-! ## Every instruction, completed or faulted -/

/-- An instruction whose bytes meet an unmapped one is answered with OutOfBounds there (`60_exceptions.md` R69, D6). -/
theorem responseOf_of_firstUnmapped {i : Instr} {m : Nat} (b : Block) (h : FirstUnmapped i.addr (accessCount i) m) :
    responseOf i b = .fault .outOfBounds (byteAddr i.addr m) := by
  cases i with
  | rb a => exact congrArg (readResponse 1) (memRead_of_firstUnmapped b h)
  | rw a => exact congrArg (readResponse 2) (memRead_of_firstUnmapped b h)
  | rd a => exact congrArg (readResponse 4) (memRead_of_firstUnmapped b h)
  | wb a v => exact congrArg writeResponse (memWrite_of_firstUnmapped b _ h)
  | ww a v => exact congrArg writeResponse (memWrite_of_firstUnmapped b _ h)
  | wd a v => exact congrArg writeResponse (memWrite_of_firstUnmapped b _ h)
  | reserved011 a => exact absurd h.1 (Nat.not_lt_zero m)
  | reserved111 a => exact absurd h.1 (Nat.not_lt_zero m)

/-- An instruction that faults at byte 0 changes nothing. -/
theorem blockAfter_of_unmapped {i : Instr} (b : Block) (h : isMapped i.addr = false) : blockAfter i b = b := by
  have hzero : ∀ (n : Nat) (v : Word), 0 < n → (memWrite b i.addr n v).after = b := fun n v hn => by
    rw [memWrite_of_firstUnmapped b v (firstUnmapped_zero hn h)]
    rfl
  cases i with
  | wb a v => exact hzero 1 _ (by decide)
  | ww a v => exact hzero 2 _ (by decide)
  | wd a v => exact hzero 4 _ (by decide)
  | rb a => rfl
  | rw a => rfl
  | rd a => rfl
  | reserved011 a => rfl
  | reserved111 a => rfl

/-- At an unmapped start an operation answers OutOfBounds at its address, and nothing changes. -/
theorem exec_of_unmapped {i : Instr} (s : State) (hi : 0 < accessCount i) (h : isMapped i.addr = false) :
    exec i s = .next (s.respond (.fault .outOfBounds i.addr)) := by
  rw [exec_eq, blockAfter_of_unmapped _ h, responseOf_of_firstUnmapped _ (firstUnmapped_zero hi h), byteAddr_zero]

/-- A read that meets an unmapped byte answers OutOfBounds there, and nothing changes. -/
theorem exec_read_of_firstUnmapped {i : Instr} {m : Nat} (s : State) (hi : isWrite i = false)
    (h : FirstUnmapped i.addr (accessCount i) m) :
    exec i s = .next (s.respond (.fault .outOfBounds (byteAddr i.addr m))) := by
  rw [exec_eq, blockAfter_of_not_write hi, responseOf_of_firstUnmapped _ h]

/-- The addresses before 0x8000 and those of 0xFEA0-0xFFFE are unmapped (`20_memory.md` R26). -/
theorem isMapped_eq_false_of_range {a : Addr} (h : a.toNat ≤ 0x7FFF ∨ (0xFEA0 ≤ a.toNat ∧ a.toNat ≤ 0xFFFE)) :
    isMapped a = false := by
  rw [isMapped_eq_false_iff, cellOf_eq_none_iff]
  omega

theorem isMapped_of_range {a : Addr} (h : (0x8000 ≤ a.toNat ∧ a.toNat ≤ 0xFE9F) ∨ a.toNat = 0xFFFF) :
    isMapped a = true := by
  rw [isMapped, ← Option.ne_none_iff_isSome, ne_eq, cellOf_eq_none_iff]
  omega

/-- Every byte of an access inside 0x8000-0xFE9F is mapped (`20_memory.md` R26). -/
theorem isMapped_byteAddr_of_range {a : Addr} {n : Nat} (hlo : 0x8000 ≤ a.toNat) (hhi : a.toNat + n ≤ 0xFEA0) :
    ∀ k < n, isMapped (byteAddr a k) = true := fun _ hk =>
  (isMapped_iff _).2 (exists_cellOf_byteAddr_of_range hlo hhi hk)

/-- An access that starts in 0x8000-0xFE9F and leaves it stops at 0xFEA0 (`20_memory.md` R43). -/
theorem firstUnmapped_at_oam_end {a : Addr} {n : Nat} (hlo : 0x8000 ≤ a.toNat) (hhi : a.toNat ≤ 0xFE9F)
    (hn : 0xFEA0 < a.toNat + n) :
    FirstUnmapped a n (0xFEA0 - a.toNat) ∧ byteAddr a (0xFEA0 - a.toNat) = 0xFEA0#16 := by
  have haddr : byteAddr a (0xFEA0 - a.toNat) = 0xFEA0#16 := by
    refine BitVec.eq_of_toNat_eq ?_
    rw [byteAddr_toNat, BitVec.toNat_ofNat]
    omega
  refine ⟨⟨by omega, isMapped_byteAddr_of_range hlo (by omega), ?_⟩, haddr⟩
  rw [haddr]
  decide

/-- A word or double word at 0xFFFF stops at 0x0000, byte 1: the address wraps (`00_scope.md` R10). -/
theorem firstUnmapped_at_ie {n : Nat} (hn : 1 < n) : FirstUnmapped 0xFFFF#16 n 1 := by
  refine ⟨hn, fun k hk => ?_, by decide⟩
  obtain rfl : k = 0 := by omega
  decide

/-! ## read_byte -/

/-- read_byte in a window whose store is a memory: the byte at the offset from the window's first address. -/
theorem exec_rb_of_holds {w : Window} {a : Addr} {s : State} {m : Memory} (h : w.Holds a)
    (hm : ∀ off, storeRead s.block w.store off = Memory.read m off.toNat) :
    exec (.rb a) s = .next (s.respond (.value ((Memory.read m (a.toNat - w.first.toNat)).setWidth 32))) := by
  rw [exec_rb_of_cell (cellOf_of_holds h), cellByte, hm, Window.offset_toNat h]

/-- Settles O20: window by window the cell's byte, and the fault at an unmapped start. -/
theorem readByteReturnsTheSelectedByte : Obligations.ReadByteReturnsTheSelectedByte := by
  refine fun s a => ⟨fun hlo hhi => ?_, fun hlo hhi => ?_, fun hlo hhi => ?_, fun hlo hhi => ?_, fun hlo hhi => ?_,
    fun h => ?_, fun h => exec_of_unmapped s (by simp [accessCount]) (isMapped_eq_false_of_range h)⟩
  · exact exec_rb_of_holds (w := .vram) ⟨hlo, hhi⟩ fun _ => rfl
  · exact exec_rb_of_holds (w := .eram) ⟨hlo, hhi⟩ fun _ => rfl
  · exact exec_rb_of_holds (w := .wram) ⟨hlo, hhi⟩ fun _ => rfl
  · exact exec_rb_of_holds (w := .echo) ⟨hlo, hhi⟩ fun _ => rfl
  · exact exec_rb_of_holds (w := .oam) ⟨hlo, hhi⟩ fun _ => rfl
  · obtain rfl : a = 0xFFFF#16 := BitVec.eq_of_toNat_eq h
    exact exec_rb_of_cell cellOf_ie s

/-! ## The reads of more than one byte -/

/-- With two bytes mapped read_word answers the second over the first. -/
theorem exec_rw_of_mapped {a : Addr} (s : State) (h : ∀ k < 2, isMapped (byteAddr a k) = true) :
    ∃ lo hi : Byte, byteAt s.block a = some lo ∧ byteAt s.block (byteAddr a 1) = some hi ∧
      exec (.rw a) s = .next (s.respond (.value ((hi ++ lo).setWidth 32))) := by
  obtain ⟨x, -, -, hlanes⟩ := memRead_of_mapped s.block (by omega) h
  have hlo : byteAt s.block a = some (lane x 0) := by simpa using hlanes 0 (by omega)
  have hhi := hlanes 1 (by omega)
  exact ⟨_, _, hlo, hhi, exec_rw_of_byteAt hlo hhi⟩

/-- Settles O22: a word inside 0x8000-0xFE9F composes its bytes; the others stop at 0xFEA0, at 0x0000 or at the start. -/
theorem readWordComposesTwoBytes : Obligations.ReadWordComposesTwoBytes := by
  refine fun s a => ⟨rfl, fun hlo hhi => ?_, fun h => ?_, fun h => ?_, fun h => ?_⟩
  · exact exec_rw_of_mapped s (isMapped_byteAddr_of_range hlo (by omega))
  · obtain ⟨hun, haddr⟩ := firstUnmapped_at_oam_end (a := a) (n := 2) (by omega) (by omega) (by omega)
    exact haddr ▸ exec_read_of_firstUnmapped s rfl hun
  · obtain rfl : a = 0xFFFF#16 := BitVec.eq_of_toNat_eq h
    exact exec_read_of_firstUnmapped (i := .rw 0xFFFF#16) s rfl (firstUnmapped_at_ie (by decide))
  · exact exec_of_unmapped s (by simp [accessCount]) (isMapped_eq_false_of_range h)

/-- The read data of four bytes is the value read. -/
theorem readData_four (x : Word) : readData 4 x = x := by
  rw [readData, BitVec.setWidth_eq, BitVec.setWidth_eq]

/-- read_dword answers the four bytes, the one at the highest address on top (`41_multibyte_access.md` R67). -/
theorem exec_rd_of_mapped {a : Addr} (s : State) (h : ∀ k < 4, isMapped (byteAddr a k) = true) :
    ∃ x : Word, exec (.rd a) s = .next (s.respond (.value x)) ∧
      ∀ k < 4, byteAt s.block (byteAddr a k) = some (lane x k) := by
  obtain ⟨x, hread, -, hlanes⟩ := memRead_of_mapped s.block le_rfl h
  refine ⟨x, ?_, hlanes⟩
  rw [exec_eq, blockAfter, responseOf, hread, readResponse, readData_four]

/-- Settles O24: a double word inside 0x8000-0xFE9F composes its bytes; the others stop at 0xFEA0, at 0x0000 or at the
start. -/
theorem readDwordComposesFourBytes : Obligations.ReadDwordComposesFourBytes := by
  refine fun s a => ⟨rfl, fun hlo hhi => ?_, fun hlo hhi => ?_, fun h => ?_, fun h => ?_⟩
  · obtain ⟨x, hexec, hlanes⟩ := exec_rd_of_mapped s (isMapped_byteAddr_of_range hlo (by omega))
    refine ⟨lane x 0, lane x 1, lane x 2, lane x 3, by simpa using hlanes 0 (by omega), hlanes 1 (by omega),
      hlanes 2 (by omega), hlanes 3 (by omega), ?_⟩
    rw [hexec, ← eq_four_lanes]
  · obtain ⟨hun, haddr⟩ := firstUnmapped_at_oam_end (a := a) (n := 4) (by omega) hhi (by omega)
    exact haddr ▸ exec_read_of_firstUnmapped s rfl hun
  · obtain rfl : a = 0xFFFF#16 := BitVec.eq_of_toNat_eq h
    exact exec_read_of_firstUnmapped (i := .rd 0xFFFF#16) s rfl (firstUnmapped_at_ie (by decide))
  · exact exec_of_unmapped s (by simp [accessCount]) (isMapped_eq_false_of_range h)

/-! ## The writes -/

/-- Settles O21: one store write at a mapped address, the fault at an unmapped one. -/
theorem writeByteChangesExactlyOneByte : Obligations.WriteByteChangesExactlyOneByte := by
  refine fun s a v hs => ⟨fun h => ?_,
    fun h => exec_of_unmapped s (by simp [accessCount]) (isMapped_eq_false_of_range h)⟩
  obtain ⟨c, hc⟩ := (isMapped_iff a).1 (isMapped_of_range h)
  exact ⟨_, exec_wb_of_cell hc v s, byteAt_storeWrite_same hs v hc,
    fun d hd => byteAt_storeWrite_other s.block v hc hd, rfl, rfl⟩

/-- What a write of n bytes leaves when m of them land: those bytes, every other cell, the stream, one more response. -/
def WriteLanded (s t : State) (a : Addr) (v : Word) (m : Nat) (r : Response) : Prop :=
  (∀ k < m, byteAt t.block (byteAddr a k) = some (lane v k)) ∧
  (∀ d, (∀ k < m, cellOf d ≠ cellOf (byteAddr a k)) → byteAt t.block d = byteAt s.block d) ∧
  t.inputs = s.inputs ∧ t.responses = s.responses ++ [r]

/-- A write of mapped bytes lands whole and is answered `done`. -/
theorem answerWrite_of_mapped {s : State} {a : Addr} {n : Nat} (hs : s.wf = true) (v : Word) (hn : n ≤ 4)
    (h : ∀ k < n, isMapped (byteAddr a k) = true) :
    ∃ t, answerWrite s (memWrite s.block a n v) = .next t ∧ WriteLanded s t a v n .done := by
  obtain ⟨hok, hlanes⟩ := memWrite_of_mapped hs v hn h
  rw [hok]
  exact ⟨_, rfl, hlanes, fun d hd => byteAt_memWrite_other s.block v hd, rfl, rfl⟩

/-- A write that meets an unmapped byte lands up to it and is answered with OutOfBounds there. -/
theorem answerWrite_of_firstUnmapped {s : State} {a : Addr} {n m : Nat} (hs : s.wf = true) (v : Word) (hn : n ≤ 4)
    (h : FirstUnmapped a n m) :
    ∃ t, answerWrite s (memWrite s.block a n v) = .next t ∧
      WriteLanded s t a v m (.fault .outOfBounds (byteAddr a m)) := by
  have hfault := memWrite_of_firstUnmapped s.block v h
  obtain ⟨hm, hbefore, -⟩ := h
  obtain ⟨-, hlanes⟩ := memWrite_of_mapped hs v (by omega) hbefore
  rw [hfault]
  exact ⟨_, rfl, hlanes, fun d hd => byteAt_memWrite_other s.block v hd, rfl, rfl⟩

/-- Settles O23: a word inside 0x8000-0xFE9F lands whole; at 0xFE9F and 0xFFFF one byte lands; else none. -/
theorem writeWordWritesItsBytesInOrder : Obligations.WriteWordWritesItsBytesInOrder := by
  intro s a v hs
  have hlane0 : lane (v.setWidth 32) 0 = v.extractLsb' 0 8 := lane_setWidth v (by omega)
  have hlane1 : lane (v.setWidth 32) 1 = v.extractLsb' 8 8 := lane_setWidth v (by omega)
  refine ⟨rfl, fun hlo hhi => ?_, fun h => ?_,
    fun h => exec_of_unmapped s (by simp [accessCount]) (isMapped_eq_false_of_range h)⟩
  · obtain ⟨t, ht, hlanes, hframe, hin, hresp⟩ :=
      answerWrite_of_mapped hs (v.setWidth 32) (by omega) (isMapped_byteAddr_of_range (n := 2) hlo (by omega))
    refine ⟨t, ht, ?_, ?_, fun d hd0 hd1 => hframe d fun k hk => ?_, hin, hresp⟩
    · simpa [hlane0] using hlanes 0 (by omega)
    · rw [← hlane1]; exact hlanes 1 (by omega)
    · obtain rfl | rfl : k = 0 ∨ k = 1 := by omega
      · rwa [byteAddr_zero]
      · exact hd1
  · have hun : FirstUnmapped a 2 1 := by
      refine ⟨by omega, fun k hk => ?_, ?_⟩
      · obtain rfl : k = 0 := by omega
        rw [byteAddr_zero]
        exact isMapped_of_range (by omega)
      · have := byteAddr_toNat a 1
        exact isMapped_eq_false_of_range (by omega)
    obtain ⟨t, ht, hlanes, hframe, hin, hresp⟩ := answerWrite_of_firstUnmapped hs (v.setWidth 32) (by omega) hun
    refine ⟨t, ht, by simpa [hlane0] using hlanes 0 (by omega), fun d hd => hframe d fun k hk => ?_, hin, hresp⟩
    obtain rfl : k = 0 := by omega
    rwa [byteAddr_zero]

/-- Settles O25: a double word inside 0x8000-0xFE9F lands whole, one that leaves it lands up to 0xFE9F, one at 0xFFFF writes
`ie` alone; else none lands. -/
theorem writeDwordWritesItsBytesInOrder : Obligations.WriteDwordWritesItsBytesInOrder := by
  refine fun s a v hs => ⟨rfl, fun hlo hhi => ?_, fun hlo hhi => ?_, fun h => ?_,
    fun h => exec_of_unmapped s (by simp [accessCount]) (isMapped_eq_false_of_range h)⟩
  · obtain ⟨t, ht, hlanes, hframe, hin, hresp⟩ :=
      answerWrite_of_mapped hs v le_rfl (isMapped_byteAddr_of_range (n := 4) hlo (by omega))
    have hlane0 : byteAt t.block a = some (lane v 0) := by simpa using hlanes 0 (by omega)
    refine ⟨t, ht, hlane0, hlanes 1 (by omega), hlanes 2 (by omega), hlanes 3 (by omega),
      fun d hd0 hd1 hd2 hd3 => hframe d fun k hk => ?_, hin, hresp⟩
    obtain rfl | rfl | rfl | rfl : k = 0 ∨ k = 1 ∨ k = 2 ∨ k = 3 := by omega
    · rwa [byteAddr_zero]
    · exact hd1
    · exact hd2
    · exact hd3
  · obtain ⟨hun, haddr⟩ := firstUnmapped_at_oam_end (a := a) (n := 4) (by omega) hhi (by omega)
    obtain ⟨t, ht, hlanes, hframe, hin, hresp⟩ := answerWrite_of_firstUnmapped hs v le_rfl hun
    exact ⟨t, ht, fun k hk => hlanes k (by omega), fun d hd => hframe d fun k hk => hd k (by omega), hin,
      haddr ▸ hresp⟩
  · obtain rfl : a = 0xFFFF#16 := BitVec.eq_of_toNat_eq h
    have hfault := memWrite_of_firstUnmapped s.block v (firstUnmapped_at_ie (n := 4) (by decide))
    have hie : (memWrite s.block 0xFFFF#16 1 v).after = { s.block with ie := lane v 0 } := by
      simp [memWrite, memWriteFrom, byteWrite_of_cell s.block _ cellOf_ie]
    rw [hie] at hfault
    rw [exec, execWd, hfault]
    rfl

/-! ## What was written is read back -/

/-- Settles O31: a completed write leaves its lanes at its addresses, where the read of the same width finds them. -/
theorem readAfterWriteReturnsTheValue : Obligations.ReadAfterWriteReturnsTheValue := by
  refine fun s a hs => ⟨fun h v => ?_, fun hlo hhi v => ?_, fun hlo hhi v => ?_⟩
  · obtain ⟨c, hc⟩ := (isMapped_iff a).1 h
    exact rb_after_wb_of_same_cell hc hc hs v
  · obtain ⟨t, ht, hlanes, -⟩ :=
      answerWrite_of_mapped hs (v.setWidth 32) (by omega) (isMapped_byteAddr_of_range (n := 2) hlo (by omega))
    have hv : (v.setWidth 32).toNat < 2 ^ 16 := by
      rw [BitVec.toNat_setWidth]
      exact (Nat.mod_le _ _).trans_lt v.isLt
    refine ⟨t, ht, ?_⟩
    rw [exec_rw_of_byteAt (by simpa using hlanes 0 (by omega)) (hlanes 1 (by omega)), ← eq_two_lanes hv]
  · have hmapped := isMapped_byteAddr_of_range (n := 4) hlo (by omega)
    obtain ⟨t, ht, hlanes, -⟩ := answerWrite_of_mapped hs v le_rfl hmapped
    obtain ⟨x, hread, hx⟩ := exec_rd_of_mapped t hmapped
    have hsame : ∀ k < 4, lane x k = lane v k := fun k hk => Option.some.inj ((hx k hk).symm.trans (hlanes k hk))
    refine ⟨t, ht, ?_⟩
    rw [hread, eq_four_lanes x, hsame 0 (by omega), hsame 1 (by omega), hsame 2 (by omega), hsame 3 (by omega),
      ← eq_four_lanes]

/-! ## The echo window's tail -/

/-- Settles O33: an address of `wram[k]`, k ≥ 0x1E00, is primary, as an echo address has a lower offset; so no echo address
is in its cell. -/
theorem echoWindowDoesNotReachTheTail : Obligations.EchoWindowDoesNotReachTheTail := by
  refine ⟨fun k hlo hhi => ?_, by decide⟩
  have ha : (BitVec.ofNat 16 (0xC000 + k)).toNat = 0xC000 + k := by rw [BitVec.toNat_ofNat]; omega
  have hk : (BitVec.ofNat 13 k).toNat = k := Nat.mod_eq_of_lt hhi
  have hcell : cellOf (BitVec.ofNat 16 (0xC000 + k)) = some ⟨.wram, BitVec.ofNat 13 k⟩ := by
    rw [cellOf_primary (by omega) (by omega), ha, Nat.add_sub_cancel_left]
  have honly : ∀ a : Addr, cellOf a = some ⟨.wram, BitVec.ofNat 13 k⟩ → a.toNat = 0xC000 + k := fun a h => by
    have := cellOf_eq_some h
    simp only [reduceCtorEq, false_and, true_and, false_or, or_false, hk] at this
    omega
  refine ⟨hcell, honly, fun s v => ⟨_, exec_wb_of_cell hcell v s, fun e helo hehi => ?_⟩⟩
  refine byteAt_storeWrite_other s.block v hcell fun h => ?_
  have := honly e (h.trans hcell)
  omega

/-! ## Words across windows -/

/-- write_word with both bytes mapped: two store writes, the low byte first (`41_multibyte_access.md` R66). -/
theorem exec_ww_of_cells {a : Addr} {c d : CellRef} (hc : cellOf a = some c) (hd : cellOf (byteAddr a 1) = some d)
    (v : Half) (s : State) :
    exec (.ww a v) s =
      .next ({ s with block := (storeWrite (storeWrite s.block c.store c.off (v.extractLsb' 0 8)) d.store d.off
        (v.extractLsb' 8 8)) }.respond .done) := by
  rw [exec_eq, blockAfter, responseOf, ← writeWordByBytes_eq, writeWordByBytes, byteWrite_of_cell _ _ hc]
  simp only [byteWrite_of_cell _ _ hd]
  rfl

/-- Settles O34: the two cells of each word, by the decoder. -/
theorem wordsCrossIntoTheNextWindow : Obligations.WordsCrossIntoTheNextWindow := by
  refine fun s v => ⟨?_, ?_, ?_, ?_⟩
  · exact exec_ww_of_cells (a := 0x9FFF#16)
      (c := ⟨.vram, 0x1FFF#13⟩) (d := ⟨.eram, 0#13⟩) (by decide) (by decide) v s
  · exact exec_ww_of_cells (a := 0xBFFF#16)
      (c := ⟨.eram, 0x1FFF#13⟩) (d := ⟨.wram, 0#13⟩) (by decide) (by decide) v s
  · exact exec_ww_of_cells (a := 0xDFFF#16)
      (c := ⟨.wram, 0x1FFF#13⟩) (d := ⟨.wram, 0#13⟩) (by decide) (by decide) v s
  · exact exec_ww_of_cells (a := 0xFDFF#16)
      (c := ⟨.wram, 0x1DFF#13⟩) (d := ⟨.oam, 0#13⟩) (by decide) (by decide) v s

end Sys2Proof.Machine
end

section
/-!
PROOFS of the faults and of what the block remembers: the response of every instruction by its three outcomes (R69-R71), the
byte writes that land (R40, R73), what a cell holds after them and after a stream (R45), and that an instruction repeated
changes nothing more (R42).
-/

namespace Sys2Proof.Machine

/-! ## The response of every instruction -/

/-- A read of mapped bytes is answered with the value whose lanes they are. -/
theorem readResponse_of_mapped {a : Addr} {n : Nat} (b : Block) (hn : n ≤ 4)
    (h : ∀ k < n, isMapped (byteAddr a k) = true) :
    ∃ x : Word, readResponse n (memRead b a n) = .value x ∧ x.toNat < 2 ^ (8 * n) ∧
      ∀ k < n, byteAt b (byteAddr a k) = some (lane x k) := by
  obtain ⟨x, hread, hx, hlanes⟩ := memRead_of_mapped b hn h
  have hdata : readData n x = x := by
    refine BitVec.eq_of_toNat_eq ?_
    rw [readData, BitVec.toNat_setWidth, BitVec.toNat_setWidth, Nat.mod_eq_of_lt hx, Nat.mod_eq_of_lt x.isLt]
  exact ⟨x, by rw [hread, readResponse, hdata], hx, hlanes⟩

/-- A write of mapped bytes is answered `done`. -/
theorem writeResponse_of_mapped {a : Addr} {n : Nat} (b : Block) (v : Word)
    (h : ∀ k < n, isMapped (byteAddr a k) = true) : writeResponse (memWrite b a n v) = .done := by
  rw [memWrite, memWriteFrom_completes b v fun j _ hj => (isMapped_iff _).1 (h j (by omega))]
  rfl

/-- A write with every byte mapped is answered `done`. -/
theorem responseOf_write {i : Instr} (b : Block) (hi : isWrite i = true)
    (h : ∀ k < accessCount i, isMapped (byteAddr i.addr k) = true) : responseOf i b = .done := by
  cases i with
  | wb a v => exact writeResponse_of_mapped b _ h
  | ww a v => exact writeResponse_of_mapped b _ h
  | wd a v => exact writeResponse_of_mapped b _ h
  | rb a => cases hi
  | rw a => cases hi
  | rd a => cases hi
  | reserved011 a => cases hi
  | reserved111 a => cases hi

/-- A read with every byte mapped is answered with the value read. -/
theorem responseOf_read {i : Instr} (b : Block) (hi : isWrite i = false) (hcount : 0 < accessCount i)
    (h : ∀ k < accessCount i, isMapped (byteAddr i.addr k) = true) :
    ∃ x : Word, responseOf i b = .value x ∧ x.toNat < 2 ^ (8 * accessCount i) ∧
      ∀ k < accessCount i, byteAt b (byteAddr i.addr k) = some (lane x k) := by
  cases i with
  | rb a => exact readResponse_of_mapped b (by decide) h
  | rw a => exact readResponse_of_mapped b (by decide) h
  | rd a => exact readResponse_of_mapped b (by decide) h
  | wb a v => cases hi
  | ww a v => cases hi
  | wd a v => cases hi
  | reserved011 a => cases hcount
  | reserved111 a => cases hcount

/-- An instruction that accesses nothing is a reserved command, answered with IllegalCommand (`60_exceptions.md` R70). -/
theorem responseOf_reserved {i : Instr} (b : Block) (h : accessCount i = 0) :
    responseOf i b = .fault .illegalCommand i.addr := by
  cases i with
  | reserved011 a => rfl
  | reserved111 a => rfl
  | rb a => cases h
  | rw a => cases h
  | rd a => cases h
  | wb a v => cases h
  | ww a v => cases h
  | wd a v => cases h

/-- Settles O38: the response is OutOfBounds at the first unmapped byte if there is one, and not OutOfBounds if there is
none. -/
theorem outOfBoundsNamesTheFirstUnmappedByte : Obligations.OutOfBoundsNamesTheFirstUnmappedByte := by
  refine fun i s => ⟨_, responseOf i s.block, exec_eq i s, rfl, fun fa => ⟨fun hr => ?_, ?_⟩⟩
  · rcases all_mapped_or_firstUnmapped i.addr (accessCount i) with hall | ⟨m, hm⟩
    · exfalso
      rcases Nat.eq_zero_or_pos (accessCount i) with hzero | hpos
      · rw [responseOf_reserved _ hzero] at hr
        cases hr
      · cases hw : isWrite i with
        | true => rw [responseOf_write _ hw hall] at hr; cases hr
        | false =>
          obtain ⟨x, hx, -⟩ := responseOf_read s.block hw hpos hall
          rw [hx] at hr
          cases hr
    · obtain ⟨-, rfl⟩ := Response.fault.inj ((responseOf_of_firstUnmapped s.block hm).symm.trans hr)
      obtain ⟨hlt, hbefore, hun⟩ := hm
      exact ⟨m, hlt, rfl, hun, hbefore⟩
  · rintro ⟨m, hlt, rfl, hun, hbefore⟩
    exact responseOf_of_firstUnmapped s.block ⟨hlt, hbefore, hun⟩

/-! The field `fault` of each kind of response (`30_encoding.md` R52). -/

theorem faultField_done : Response.done.faultField = 0b00#2 := rfl

theorem faultField_value (x : Word) : (Response.value x).faultField = 0b00#2 := rfl

theorem faultField_outOfBounds (fa : Addr) : (Response.fault .outOfBounds fa).faultField = 0b01#2 := rfl

theorem faultField_illegalCommand (fa : Addr) : (Response.fault .illegalCommand fa).faultField = 0b10#2 := rfl

/-- Settles O40: the fields of the response in each outcome: a reserved command, a first unmapped byte, a completed write, a
completed read. -/
theorem responseFieldsReportTheOutcome : Obligations.ResponseFieldsReportTheOutcome := by
  intro i s t h
  obtain rfl := Host.Outcome.next.inj ((exec_eq i s).symm.trans h)
  refine ⟨responseOf i s.block, rfl, rfl, ?_⟩
  rcases Nat.eq_zero_or_pos (accessCount i) with hzero | hpos
  · rw [responseOf_reserved s.block hzero, faultField_illegalCommand]
    simp [hzero, Response.rdataField, Response.faddrField]
  have hne : accessCount i ≠ 0 := hpos.ne'
  rcases all_mapped_or_firstUnmapped i.addr (accessCount i) with hall | ⟨m, hm⟩
  · have hmapped : ∀ m < accessCount i, isMapped (i.addr + BitVec.ofNat 16 m) = true := hall
    cases hw : isWrite i with
    | true =>
      rw [responseOf_write s.block hw hall, faultField_done]
      simpa [hne, Response.rdataField, Response.faddrField] using hmapped
    | false =>
      obtain ⟨x, hr, hx, hlanes⟩ := responseOf_read s.block hw hpos hall
      rw [hr, faultField_value]
      simpa [hne, Response.rdataField, Response.faddrField] using And.intro ⟨hx, hlanes⟩ hmapped
  · rw [responseOf_of_firstUnmapped s.block hm, faultField_outOfBounds]
    obtain ⟨hlt, hbefore, hun⟩ := hm
    refine ⟨by decide, nofun, fun _ => rfl, ⟨fun _ => ⟨m, hlt, hun⟩, fun _ => rfl⟩,
      fun _ => ⟨m, hlt, rfl, hun, hbefore⟩, ⟨nofun, fun hzero => absurd hzero hne⟩, nofun⟩

/-! ## Reserved commands -/

/-- Settles O39: both commands are illegal at every address, and the two requests with SZ = 0b11 decode to them. -/
theorem reservedCommandsRaiseIllegalCommand : Obligations.ReservedCommandsRaiseIllegalCommand := by
  refine ⟨fun s a => ⟨rfl, rfl⟩, fun s r rest hin hsz => ?_⟩
  have hcmd : ∀ c : BitVec 3, c.extractLsb' 0 2 = 0b11#2 → c = 0b011#3 ∨ c = 0b111#3 := by decide
  rw [step_of_request hin]
  obtain ⟨c, a, w⟩ := r
  obtain rfl | rfl := hcmd c hsz
  · rw [decode_reserved011]
    rfl
  · rw [decode_reserved111]
    rfl

/-! ## The byte writes that land -/

/-- The block with some byte writes applied in order. -/
def applyWrites (ws : List (CellRef × Byte)) (b : Block) : Block :=
  ws.foldl (fun b w => storeWrite b w.1.store w.1.off w.2) b

/-- A write sequence leaves the block with its landed byte writes applied, completed or faulted (`20_memory.md` R40). -/
theorem memWriteFrom_after_eq (b : Block) (a : Addr) (v : Word) (k i : Nat) :
    (memWriteFrom b a v k i).after = applyWrites (landedFrom a ((List.range' i k).map (lane v)) i) b := by
  induction k generalizing b i with
  | zero => rfl
  | succ k ih =>
    simp only [memWriteFrom, List.range'_succ, List.map_cons, landedFrom]
    cases hc : cellOf (byteAddr a i) with
    | none => rw [byteWrite_of_unmapped b _ hc]; rfl
    | some c =>
      rw [byteWrite_of_cell b _ hc]
      exact ih _ (i + 1)

/-- The bytes of a value widened to 32 bits, as a write sequence takes them. -/
theorem writtenBytes_eq_lanes (a : Addr) :
    (∀ v : Byte, writtenBytes (.wb a v) = (List.range' 0 1).map (lane (v.setWidth 32))) ∧
    (∀ v : Half, writtenBytes (.ww a v) = (List.range' 0 2).map (lane (v.setWidth 32))) ∧
    (∀ v : Word, writtenBytes (.wd a v) = (List.range' 0 4).map (lane v)) := by
  refine ⟨fun v => ?_, fun v => ?_, fun v => rfl⟩
  · simp [writtenBytes, List.range'_succ]
  · have h0 : lane (v.setWidth 32) 0 = v.extractLsb' 0 8 := lane_setWidth v (by omega)
    have h1 : lane (v.setWidth 32) 1 = v.extractLsb' 8 8 := lane_setWidth v (by omega)
    simp [writtenBytes, List.range'_succ, h0, h1]

/-- Every instruction leaves the block with its landed byte writes applied (`60_exceptions.md` R73). -/
theorem blockAfter_eq_applyWrites (i : Instr) (b : Block) : blockAfter i b = applyWrites (landedWrites i) b := by
  cases i with
  | wb a v => rw [landedWrites, (writtenBytes_eq_lanes a).1]; exact memWriteFrom_after_eq b a _ 1 0
  | ww a v => rw [landedWrites, (writtenBytes_eq_lanes a).2.1]; exact memWriteFrom_after_eq b a _ 2 0
  | wd a v => rw [landedWrites, (writtenBytes_eq_lanes a).2.2]; exact memWriteFrom_after_eq b a v 4 0
  | rb a => rfl
  | rw a => rfl
  | rd a => rfl
  | reserved011 a => rfl
  | reserved111 a => rfl

/-- Settles O41: an instruction's block is `blockAfter`, which applies the landed byte writes. -/
theorem faultsLeaveExactlyTheBytesBeforeThem : Obligations.FaultsLeaveExactlyTheBytesBeforeThem :=
  fun i s _ h => (exec_block h).trans (blockAfter_eq_applyWrites i s.block)

/-! ## What a cell holds afterwards -/

theorem landedFrom_inside {a : Addr} {vs : List Byte} {i : Nat} :
    ∀ w ∈ landedFrom a vs i, w.1.off.toNat < w.1.store.size := by
  induction vs generalizing i with
  | nil => intro w hw; cases hw
  | cons v vs ih =>
    intro w hw
    rw [landedFrom] at hw
    cases hc : cellOf (byteAddr a i) with
    | none => rw [hc] at hw; cases hw
    | some c =>
      simp only [hc, List.mem_cons] at hw
      rcases hw with rfl | hw
      · exact cellOf_inside hc
      · exact ih w hw

/-- After some byte writes a cell holds the last one to it, else what it held (`20_memory.md` R45). -/
theorem cellByte_applyWrites {ws : List (CellRef × Byte)} {b : Block} {c : CellRef} (hb : b.wf = true)
    (hws : ∀ w ∈ ws, w.1.off.toNat < w.1.store.size) (hc : c.off.toNat < c.store.size) :
    cellByte (applyWrites ws b) c = lastWritten c (cellByte b c) ws := by
  induction ws generalizing b with
  | nil => rfl
  | cons w ws ih =>
    have hw := hws w (List.mem_cons_self ..)
    have hone : cellByte (storeWrite b w.1.store w.1.off w.2) c = if w.1 = c then w.2 else cellByte b c := by
      split
      · next heq => rw [← heq, cellByte_storeWrite_same hb hw]
      · next hne => exact cellByte_storeWrite_other hw hc (Ne.symm hne) w.2
    rw [lastWritten, ← hone]
    exact ih (storeWrite_wf hb _ _ _) fun w' hw' => hws w' (List.mem_cons_of_mem _ hw')

/-- After an instruction a cell holds the last landed byte write to it, else what it held. -/
theorem cellByte_blockAfter {b : Block} {c : CellRef} (hb : b.wf = true) (i : Instr) (hc : c.off.toNat < c.store.size) :
    cellByte (blockAfter i b) c = lastWritten c (cellByte b c) (landedWrites i) := by
  rw [blockAfter_eq_applyWrites]
  exact cellByte_applyWrites hb landedFrom_inside hc

/-! ## A repeated instruction -/

/-- Byte writes decide what a cell holds whatever it held, or leave it. -/
theorem lastWritten_cases (c : CellRef) (ws : List (CellRef × Byte)) :
    (∃ v, ∀ old, lastWritten c old ws = v) ∨ ∀ old, lastWritten c old ws = old := by
  induction ws with
  | nil => exact .inr fun _ => rfl
  | cons w ws ih =>
    simp only [lastWritten]
    rcases ih with ⟨v, hv⟩ | hkeep
    · exact .inl ⟨v, fun old => hv _⟩
    · by_cases hw : w.1 = c
      · exact .inl ⟨w.2, fun old => by rw [hkeep, if_pos hw]⟩
      · exact .inr fun old => by rw [hkeep, if_neg hw]

/-- The same byte writes again leave a cell as the first time left it. -/
theorem lastWritten_twice (c : CellRef) (old : Byte) (ws : List (CellRef × Byte)) :
    lastWritten c (lastWritten c old ws) ws = lastWritten c old ws := by
  rcases lastWritten_cases c ws with ⟨v, hv⟩ | hkeep
  · rw [hv, hv]
  · rw [hkeep]

/-- An instruction performed again leaves the block it left (`20_memory.md` R42). -/
theorem blockAfter_twice {b : Block} (hb : b.wf = true) (i : Instr) :
    blockAfter i (blockAfter i b) = blockAfter i b := by
  have hb' := blockAfter_wf hb i
  refine Block.eq_of_cellByte_eq (blockAfter_wf hb' i) hb' fun c hc => ?_
  rw [cellByte_blockAfter hb' i hc, cellByte_blockAfter hb i hc, lastWritten_twice]

/-- Settles O35: the block of an instruction that does not write is the block before, its response depends on the block
alone, and byte writes repeated change no cell. -/
theorem readsArePureAndWritesIdempotent : Obligations.ReadsArePureAndWritesIdempotent := by
  intro i s t hs h
  obtain rfl := Host.Outcome.next.inj ((exec_eq i s).symm.trans h)
  refine ⟨fun hread => blockAfter_of_not_write hread s.block, fun d hd => byteAt_blockAfter_other s.block hd,
    _, exec_eq i _, blockAfter_twice hs i, fun hread => ⟨responseOf i s.block, rfl, ?_⟩⟩
  simp only [respond_responses, respond_block, blockAfter_of_not_write hread]

/-! ## The history of a cell -/

/-- After one input a cell holds what its history says of it. -/
theorem cellByte_blockAfterInput {b : Block} {c : CellRef} (hb : b.wf = true) (x : Input)
    (hc : c.off.toNat < c.store.size) (rest : List Input) :
    cellHistory c (cellByte (blockAfterInput x b) c) rest = cellHistory c (cellByte b c) (x :: rest) := by
  cases x with
  | reset => rw [blockAfterInput, cellByte_new, cellHistory]
  | request r => rw [blockAfterInput, cellByte_blockAfter hb (decode r) hc, cellHistory]

/-- After a whole stream every cell holds its history (`20_memory.md` R45). -/
theorem runSteps_cellByte (s : State) (hs : s.wf = true) :
    ∃ t, runSteps s.inputs.length s = .next t ∧
      ∀ c : CellRef, c.off.toNat < c.store.size → cellByte t.block c = cellHistory c (cellByte s.block c) s.inputs := by
  obtain ⟨b, ins, before⟩ := s
  induction ins generalizing b before with
  | nil => exact ⟨_, rfl, fun c _ => rfl⟩
  | cons x rest ih =>
    obtain ⟨t, hrun, hcells⟩ := ih (blockAfterInput x b) (before ++ responsesTo x b) (blockAfterInput_wf hs x)
    refine ⟨t, (runSteps_succ_of_step (step_of_input rfl)).trans hrun, fun c hc => ?_⟩
    exact (hcells c hc).trans (cellByte_blockAfterInput hs x hc rest)

/-- Settles O37: an address reads as its cell, and the cell holds its history. -/
theorem readsReturnTheLastWriteToTheCell : Obligations.ReadsReturnTheLastWriteToTheCell := by
  intro s hs
  obtain ⟨t, hrun, hcells⟩ := runSteps_cellByte s hs
  refine ⟨t, hrun, fun a c hc => ?_⟩
  have hcell := hcells c (cellOf_inside hc)
  have hbyte : byteAt t.block a = some (cellHistory c (cellByte s.block c) s.inputs) := by
    rw [byteAt_eq, hc, ← hcell]
    rfl
  exact ⟨hbyte, exec_rb_of_byteAt hbyte, fun hnew => by rw [hbyte, hnew, cellByte_new]⟩

end Sys2Proof.Machine
end
